-- ==== Sys2Proof/Word.lean ====
section
/-! DEFINITION. The two widths the block moves values in (rules R8, R10): bytes and 16-bit words. -/

namespace Sys2Proof

/-- An 8-bit value: an input byte, a CRC-8 or XOR accumulator, a table index, a register number (R8, R51, R52). -/
abbrev Byte := BitVec 8

/-- A 16-bit value: a command word, a response word, a CRC-16 accumulator (R8). -/
abbrev Word := BitVec 16

end Sys2Proof
end

