-- ==== Sys2Proof/Config.lean ====
section
/-! DEFINITION. What is fixed for the block (rule R8): the polynomials, the seeds, the widths register, the table
size, and the one open parameter RSP_DEPTH. -/

namespace Sys2Proof

/-- POLY8, the CRC-8 polynomial without its x^8 term (R8, R30). -/
def Config.poly8 : Byte := 0x07#8

/-- POLY16, the CRC-16 polynomial in reflected form (R8, R30). -/
def Config.poly16 : Word := 0xA001#16

/-- SEED8 (R8, R31). -/
def Config.seed8 : Byte := 0x00#8

/-- SEED16 (R8, R31). -/
def Config.seed16 : Word := 0xFFFF#16

/-- SEEDX (R8, R31). -/
def Config.seedX : Byte := 0xFF#8

/-- WIDTHS: field 4:0 is the C8 width 8, field 9:5 the C16 width 16, field 14:10 the X8 width 8, bit 15 is 0 (R33). -/
def Config.widths : Word := 0#1 ++ 8#5 ++ 16#5 ++ 8#5

/-- FREE VALUE. How far RSP_DEPTH is above its least value 1 (R8 calls RSP_DEPTH "OPEN, an integer >= 1 the model takes
as an argument"; D13, U3). No body: nothing can say what it is (log 4, safe). -/
opaque Config.rspDepthExtra : Nat

/-- RSP_DEPTH, the capacity of the response queue of this block: any integer that is at least 1 (R8, R34; log 4). -/
def Config.rspDepth : Nat := Config.rspDepthExtra + 1

end Sys2Proof
end

