-- ==== Sys2Proof/Syntax.lean ====
section
/-! DEFINITION. The instructions: one constructor for each of the thirteen rows of spec/opcode_table.json (rule R75). -/

namespace Sys2Proof

/-- The three engines of the `eng` field (R71); its value 11 is reserved and is no engine. -/
inductive Engine where
  | c8
  | c16
  | x8
deriving DecidableEq, Repr

/-- The thirteen legal commands (R75), with their `imm8` operand where it is used (R73). -/
inductive Instr where
  /-- NOP (R182). -/
  | nop
  /-- INIT.C8 (R121). -/
  | initC8
  /-- INIT.C16 (R141). -/
  | initC16
  /-- INIT.X8 (R161). -/
  | initX8
  /-- FEED.C8 b (R122). -/
  | feedC8 (b : Byte)
  /-- FEED.C16 b (R142). -/
  | feedC16 (b : Byte)
  /-- FEED.X8 b (R162). -/
  | feedX8 (b : Byte)
  /-- READ.C8 (R123). -/
  | readC8
  /-- READ.C16 (R143). -/
  | readC16
  /-- READ.X8 (R163). -/
  | readX8
  /-- TREAD.C8 i (R106). -/
  | treadC8 (i : Byte)
  /-- TREAD.C16 i (R107). -/
  | treadC16 (i : Byte)
  /-- RREG n (R184), legal for n = 0x00 to 0x08 only. -/
  | rreg (n : Byte)
deriving DecidableEq, Repr

end Sys2Proof
end

