-- ==== Sys2Proof/WellFormed.lean ====
section
/-! DEFINITION. Which terms of Instr are instructions of the block (rules R75, R76): every term but an RREG of a reserved
register number. -/

namespace Sys2Proof

/-- The register numbers that name a register: 0x00 to 0x08 (R32, R52). -/
def legalRegister (n : Byte) : Bool := n.toNat ≤ 8

/-- The checks on an instruction's operands: every byte and every table index is legal (R51, R73), a register number is
legal up to 0x08 (R76). -/
def Instr.wellFormed : Instr → Bool
  | .nop => true
  | .initC8 => true
  | .initC16 => true
  | .initX8 => true
  | .feedC8 _ => true
  | .feedC16 _ => true
  | .feedX8 _ => true
  | .readC8 => true
  | .readC16 => true
  | .readX8 => true
  | .treadC8 _ => true
  | .treadC16 _ => true
  | .rreg n => legalRegister n

end Sys2Proof
end

