-- ==== Sys2Proof/Decode.lean ====
section
/-! DEFINITION. The decoder of rule R78, total on all 65536 command words and rejecting by name; the encoder from the
field diagram of rule R70; the opcode table of rule R75 as rows of mask and match. -/

namespace Sys2Proof

/-- Why a word is no legal command: the cases of R74, R76 and R77. The names are the model's (log 10); the block itself
tells none of them apart (R201). -/
inductive Illegal where
  /-- `rsv != 00` (R74). -/
  | reservedBits
  /-- `op` in 0x6 to 0xF (R77). -/
  | reservedOpcode
  /-- NOP with any bit of 11:0 set (R76). -/
  | nopOperand
  /-- INIT, FEED, READ or TREAD with `eng = 11` (R76). -/
  | reservedEngine
  /-- INIT or READ with `imm8 != 0x00` (R76). -/
  | unusedImmediate
  /-- TREAD with `eng = 10`: the XOR engine has no table (R26, R76). -/
  | noTable
  /-- RREG with `eng != 00` (R76). -/
  | rregEngine
  /-- RREG of a register number in 0x09 to 0xFF (R76). -/
  | reservedRegister
deriving DecidableEq, Repr

/-- Bits 15:12 (R70). -/
def opField (c : Word) : BitVec 4 := c.extractLsb' 12 4

/-- Bits 11:10 (R70). -/
def engField (c : Word) : BitVec 2 := c.extractLsb' 10 2

/-- Bits 9:8 (R70). -/
def rsvField (c : Word) : BitVec 2 := c.extractLsb' 8 2

/-- Bits 7:0 (R70). -/
def immField (c : Word) : Byte := c.extractLsb' 0 8

/-- The engine an `eng` field selects; 11 selects none (R71). -/
def engineOf (e : BitVec 2) : Option Engine :=
  if e = 0b00#2 then some .c8
  else if e = 0b01#2 then some .c16
  else if e = 0b10#2 then some .x8
  else none

/-- INIT(eng) (R75). -/
def initOf : Engine → Instr
  | .c8 => .initC8
  | .c16 => .initC16
  | .x8 => .initX8

/-- FEED(eng, imm) (R75). -/
def feedOf (b : Byte) : Engine → Instr
  | .c8 => .feedC8 b
  | .c16 => .feedC16 b
  | .x8 => .feedX8 b

/-- READ(eng) (R75). -/
def readOf : Engine → Instr
  | .c8 => .readC8
  | .c16 => .readC16
  | .x8 => .readX8

/-- INIT and READ: `eng` names an engine and `imm8` is 0x00 (R76, R78). -/
def decodePlain (make : Engine → Instr) (eng : BitVec 2) (imm : Byte) : Except Illegal Instr :=
  match engineOf eng with
  | none => .error .reservedEngine
  | some e => if imm = 0x00#8 then .ok (make e) else .error .unusedImmediate

/-- FEED: `eng` names an engine (R76, R78). -/
def decodeFeed (eng : BitVec 2) (imm : Byte) : Except Illegal Instr :=
  match engineOf eng with
  | none => .error .reservedEngine
  | some e => .ok (feedOf imm e)

/-- TREAD: `eng` names an engine with a table (R76, R78). -/
def decodeTread (eng : BitVec 2) (imm : Byte) : Except Illegal Instr :=
  match engineOf eng with
  | none => .error .reservedEngine
  | some .c8 => .ok (.treadC8 imm)
  | some .c16 => .ok (.treadC16 imm)
  | some .x8 => .error .noTable

/-- RREG: `eng` is 00 and `imm8` names a register (R76, R78). -/
def decodeRreg (eng : BitVec 2) (imm : Byte) : Except Illegal Instr :=
  if eng = 0b00#2 then
    if legalRegister imm then .ok (.rreg imm) else .error .reservedRegister
  else .error .rregEngine

/-- The decoder, in the order of R78's pseudocode: the reserved bits first, then the operation. -/
def decode (c : Word) : Except Illegal Instr :=
  if rsvField c ≠ 0b00#2 then .error .reservedBits
  else if opField c = 0x0#4 then
    if c.extractLsb' 0 12 = 0x000#12 then .ok .nop else .error .nopOperand
  else if opField c = 0x1#4 then decodePlain initOf (engField c) (immField c)
  else if opField c = 0x2#4 then decodeFeed (engField c) (immField c)
  else if opField c = 0x3#4 then decodePlain readOf (engField c) (immField c)
  else if opField c = 0x4#4 then decodeTread (engField c) (immField c)
  else if opField c = 0x5#4 then decodeRreg (engField c) (immField c)
  else .error .reservedOpcode

/-- The four fields laid out as R70's diagram draws them, bit 15 on the left. -/
def encodeFields (op : BitVec 4) (eng : BitVec 2) (imm : Byte) : Word := op ++ eng ++ 0b00#2 ++ imm

/-- The word of an instruction (R70 to R75). An ill-formed RREG has an illegal word. -/
def encode : Instr → Word
  | .nop => encodeFields 0x0#4 0b00#2 0x00#8
  | .initC8 => encodeFields 0x1#4 0b00#2 0x00#8
  | .initC16 => encodeFields 0x1#4 0b01#2 0x00#8
  | .initX8 => encodeFields 0x1#4 0b10#2 0x00#8
  | .feedC8 b => encodeFields 0x2#4 0b00#2 b
  | .feedC16 b => encodeFields 0x2#4 0b01#2 b
  | .feedX8 b => encodeFields 0x2#4 0b10#2 b
  | .readC8 => encodeFields 0x3#4 0b00#2 0x00#8
  | .readC16 => encodeFields 0x3#4 0b01#2 0x00#8
  | .readX8 => encodeFields 0x3#4 0b10#2 0x00#8
  | .treadC8 i => encodeFields 0x4#4 0b00#2 i
  | .treadC16 i => encodeFields 0x4#4 0b01#2 i
  | .rreg n => encodeFields 0x5#4 0b00#2 n

/-- One row of R75's table: a word belongs to it if its bits under `mask` are `word` and, for RREG, the low byte is at
most 0x08. -/
structure OpcodeRow where
  word : Word
  mask : Word
  lowAtMost : Nat
deriving DecidableEq, Repr

/-- R75's table, in its order. -/
def opcodeRows : List OpcodeRow :=
  [⟨0x0000#16, 0xFFFF#16, 255⟩,
   ⟨0x1000#16, 0xFFFF#16, 255⟩, ⟨0x1400#16, 0xFFFF#16, 255⟩, ⟨0x1800#16, 0xFFFF#16, 255⟩,
   ⟨0x2000#16, 0xFF00#16, 255⟩, ⟨0x2400#16, 0xFF00#16, 255⟩, ⟨0x2800#16, 0xFF00#16, 255⟩,
   ⟨0x3000#16, 0xFFFF#16, 255⟩, ⟨0x3400#16, 0xFFFF#16, 255⟩, ⟨0x3800#16, 0xFFFF#16, 255⟩,
   ⟨0x4000#16, 0xFF00#16, 255⟩, ⟨0x4400#16, 0xFF00#16, 255⟩,
   ⟨0x5000#16, 0xFF00#16, 8⟩]

/-- The word is one of the row's (R75). -/
def OpcodeRow.holds (r : OpcodeRow) (c : Word) : Bool :=
  (c &&& r.mask) == r.word && decide ((immField c).toNat ≤ r.lowAtMost)

/-- The row of R75 that an instruction stands for. -/
def Instr.row : Instr → OpcodeRow
  | .nop => ⟨0x0000#16, 0xFFFF#16, 255⟩
  | .initC8 => ⟨0x1000#16, 0xFFFF#16, 255⟩
  | .initC16 => ⟨0x1400#16, 0xFFFF#16, 255⟩
  | .initX8 => ⟨0x1800#16, 0xFFFF#16, 255⟩
  | .feedC8 _ => ⟨0x2000#16, 0xFF00#16, 255⟩
  | .feedC16 _ => ⟨0x2400#16, 0xFF00#16, 255⟩
  | .feedX8 _ => ⟨0x2800#16, 0xFF00#16, 255⟩
  | .readC8 => ⟨0x3000#16, 0xFFFF#16, 255⟩
  | .readC16 => ⟨0x3400#16, 0xFFFF#16, 255⟩
  | .readX8 => ⟨0x3800#16, 0xFFFF#16, 255⟩
  | .treadC8 _ => ⟨0x4000#16, 0xFF00#16, 255⟩
  | .treadC16 _ => ⟨0x4400#16, 0xFF00#16, 255⟩
  | .rreg _ => ⟨0x5000#16, 0xFF00#16, 8⟩

/-- The instruction a command word stands for, if it is legal. -/
def decode? (c : Word) : Option Instr :=
  match decode c with
  | .ok i => some i
  | .error _ => none

/-- The command word whose low `nbits` bits are w and whose other bits are 0. A command is one whole word with no byte
order (R54, R79), so there is nothing to lay out. -/
def tableWord (nbits w : Nat) : Word := BitVec.ofNat 16 (w % 2 ^ nbits)

/-- The instruction the decoder reads from a word numbered as spec/opcode_table.json numbers it. -/
def decodeTableWord (nbits w : Nat) : Option Instr := decode? (tableWord nbits w)

end Sys2Proof
end

