-- ==== Sys2Proof/Machine/State.lean ====
section
/-! DEFINITION. The state of the block (rules R20 to R38), what stops a step, and the state after reset (rule R38). -/

namespace Sys2Proof.Machine

/-- Whose atomic step comes next, and for the host which of its three actions it is (R235, R243). -/
inductive Turn where
  /-- The command agent (R238). -/
  | command
  /-- The table builder (R102). -/
  | builder
  /-- The host presents a word at the tail of the command stream (R235 a). -/
  | present (c : Word)
  /-- The host drains one response word (R235 b, R236). -/
  | drain
  /-- The host asserts reset (R235 c, R230). -/
  | reset
deriving DecidableEq, Repr

/-- Everything a step reads or writes. The first nine fields are the architectural state, exactly R20's list. -/
structure State where
  /-- CRC-8 accumulator (R21). -/
  acc8 : Byte
  /-- CRC-16 accumulator (R21). -/
  acc16 : Word
  /-- XOR accumulator (R21). -/
  accx : Byte
  /-- CRC-8 lookup table; an entry not written since reset holds no value (R23, R25). -/
  t8 : Vector (Option Byte) 256
  /-- CRC-16 lookup table; an entry not written since reset holds no value (R24, R25). -/
  t16 : Vector (Option Word) 256
  /-- Builder index, register BUILD_IDX, 9 bits (R27). -/
  bidx : BitVec 9
  /-- Sticky illegal-command flag, STATUS.ERR (R29). -/
  err : Bool
  /-- First illegal command word since reset, register ERRCMD (R29). -/
  errcmd : Word
  /-- Response queue, head first (R34). -/
  rspq : List Word
  /-- MODEL'S OWN. The command words presented and not yet gone, head first: the host's input (R20, R35; log 5). -/
  stream : List Word
  /-- MODEL'S OWN. The response words the host has drained, oldest first (R236; log 6). -/
  received : List Word
  /-- MODEL'S OWN. The choices still to come of which agent moves (R243; log 1). -/
  schedule : List Turn
  /-- MODEL'S OWN. The open parameter RSP_DEPTH (R8, R34, U3); no step changes it (log 4). -/
  rspDepth : Nat
deriving DecidableEq, Repr

/-- What stops the machine. -/
inductive Fault where
  /-- Raised by a command that reads entry i of the engine's table while the entry holds no value: "a read of one is
  unreachable, and if reached it is a fault of the model" (R25, U1). SAFE: the model stops (log 8). -/
  | unwrittenEntry (e : Engine) (i : Byte)
deriving DecidableEq, Repr

/-- What the model has no meaning for. -/
inductive Refusal where
  /-- Raised by an arm of exec whose instruction has no meaning yet; no arm is left that raises it. SAFE: the model
  stops. -/
  | notModelled (mnemonic : String)
deriving DecidableEq, Repr

/-- The outcome of a step of this machine. -/
abbrev Result := Host.Outcome State Fault Refusal

/-- The state right after reset (R38): the accumulators at their seeds, no entry written, no error, the queue empty. The
stream is empty (log 5), so is the record of drained words (log 6) and the schedule (log 1); the capacity is the open
parameter (log 4). -/
def State.reset : State where
  acc8 := Config.seed8
  acc16 := Config.seed16
  accx := Config.seedX
  t8 := Vector.replicate 256 none
  t16 := Vector.replicate 256 none
  bidx := 0#9
  err := false
  errcmd := 0x0000#16
  rspq := []
  stream := []
  received := []
  schedule := []
  rspDepth := Config.rspDepth

end Sys2Proof.Machine
end

