-- ==== Sys2Proof/Machine/Flags.lean ====
section
/-! DEFINITION. The block's two flags, TBL_READY and ERR, and the STATUS register they make up (rules R27, R28, R36). -/

namespace Sys2Proof.Machine

/-- The builder still has entries to write: `bidx < 256` (R102, R240). -/
def State.building (s : State) : Bool := s.bidx.toNat < 256

/-- STATUS.TBL_READY: `bidx = 256` (R27, R28). -/
def State.tablesReady (s : State) : Bool := s.bidx.toNat == 256

/-- STATUS: `zext_16((err << 1) | (bidx == 256 ? 1 : 0))`, bits 15:2 zero (R28, R184). -/
def State.status (s : State) : Word :=
  ((BitVec.ofBool s.err).setWidth 16 <<< 1) ||| (BitVec.ofBool s.tablesReady).setWidth 16

/-- The queue holds RSP_DEPTH words (R34, R241). -/
def State.queueFull (s : State) : Bool := s.rspq.length == s.rspDepth

end Sys2Proof.Machine
end

