-- ==== Sys2Proof/Machine/Operands.lean ====
section
/-! DEFINITION. How a command reads its operands: the table index it forms (rules R51, R73), a table entry (rules R23 to
R25), a numbered register (rules R32, R184), and the widening of an 8-bit value to a response word (rules R53, R55). -/

namespace Sys2Proof.Machine

/-- `zext_16` of an 8-bit value: bits 15:8 are 0, bit i stays bit i (R10, R53, R55). -/
def zext16 (v : Byte) : Word := v.setWidth 16

/-- The low eight bits of a word, `v[7:0]` (R9). -/
def lowByte (v : Word) : Byte := v.extractLsb' 0 8

/-- The T8 index of FEED.C8: `acc8 XOR b` (R51, R122). -/
def State.index8 (s : State) (b : Byte) : Byte := s.acc8 ^^^ b

/-- The T16 index of FEED.C16: `acc16[7:0] XOR b` (R51, R142). -/
def State.index16 (s : State) (b : Byte) : Byte := lowByte s.acc16 ^^^ b

/-- Entry i of a lookup table; every 8-bit index selects one (R51). None is "no value" (R25). -/
def entry {w : Nat} (t : Vector (Option (BitVec w)) 256) (i : Byte) : Option (BitVec w) :=
  t[i.toNat]'(i.isLt)

/-- The value RREG reads from register n (R32, R184); the numbers 0x09 to 0xFF name none. -/
def State.register (s : State) (n : Byte) : Option Word :=
  if n = 0x00#8 then some s.status
  else if n = 0x01#8 then some (s.bidx.setWidth 16)
  else if n = 0x02#8 then some (zext16 Config.poly8)
  else if n = 0x03#8 then some Config.poly16
  else if n = 0x04#8 then some (zext16 Config.seed8)
  else if n = 0x05#8 then some Config.seed16
  else if n = 0x06#8 then some (zext16 Config.seedX)
  else if n = 0x07#8 then some Config.widths
  else if n = 0x08#8 then some s.errcmd
  else none

end Sys2Proof.Machine
end

