-- ==== Sys2Proof/Machine/Ops.lean ====
section
/-! DEFINITION. The named operations the meanings are made of: advancing the stream, responding, the two holds, reading a
table entry, and raising IllegalCommand, the block's only error (rules R11, R35, R201, R202, R240, R241). -/

namespace Sys2Proof.Machine

/-- The head of the stream moves to the next word (R35, R238). -/
def advance (s : State) : State := { s with stream := s.stream.tail }

/-- The command is performed: its effect is s, and the stream advances (R238). -/
def complete (s : State) : Result := .next (advance s)

/-- The command agent has no step now: nothing changes and the command stays at the head (R11; log 3). -/
def hold (s : State) : Result := .next s

/-- `respond(v)`: v is appended at the tail of the response queue (R11, R34). -/
def respond (v : Word) (s : State) : State := { s with rspq := s.rspq ++ [v] }

/-- The hold on the tables: while `bidx < 256` the command waits (R240). -/
def whenTablesReady (s : State) (run : Result) : Result := if s.building then hold s else run

/-- The hold on the response queue: while it holds RSP_DEPTH words the command waits (R241). -/
def whenRoom (s : State) (run : Result) : Result := if s.queueFull then hold s else run

/-- A command whose whole effect is one response: it holds on a full queue, responds and advances (R56, R241). -/
def respondWith (v : Word) (s : State) : Result := whenRoom s (complete (respond v s))

/-- A read of entry i of an engine's table: its value is handed on; an entry that holds no value is a fault of the model
(R25; log 8). -/
def withEntry {w : Nat} (e : Engine) (t : Vector (Option (BitVec w)) 256) (i : Byte)
    (use : BitVec w → Result) : Result :=
  match entry t i with
  | some v => use v
  | none => .fault (.unwrittenEntry e i)

/-- TAKING THE EXCEPTION: the effect of illegal command word c on the block's state. The first one since reset is recorded
in errcmd, err is set, nothing else changes (R29, R202). There is no trap entry and no return from one: only reset
clears err and errcmd (R206, R207). -/
def recordIllegal (c : Word) (s : State) : State :=
  { s with errcmd := if s.err then s.errcmd else c, err := true }

/-- `raise IllegalCommand(c)`: the record is made and the stream advances past c; never held, no response (R202). -/
def raiseIllegal (c : Word) (s : State) : Result := complete (recordIllegal c s)

/-- The command word the command agent fetches: the head of the stream, if the host has presented one (R35, R238). -/
def fetch (s : State) : Option Word := s.stream.head?

end Sys2Proof.Machine
end

