-- ==== Sys2Proof/Machine/Control.lean ====
section
/-! DEFINITION. The control instructions NOP and RREG (rules R182, R184). -/

namespace Sys2Proof.Machine

/-- NOP: no effect but the advance (R182). -/
def execNop (s : State) : Result := complete s

/-- RREG n: respond with the register's value (R184). A reserved number is an illegal command, raised before any hold (R76,
R201, R202); no decoded word has one, so only an ill-formed term gets there (log 9). -/
def execRreg (n : Byte) (s : State) : Result :=
  match s.register n with
  | some v => respondWith v s
  | none => raiseIllegal (encode (.rreg n)) s

end Sys2Proof.Machine
end

