-- ==== Sys2Proof/Machine/Crc16.lean ====
section
/-! DEFINITION. Engine C16: INIT.C16, FEED.C16, READ.C16 (rules R140 to R143). -/

namespace Sys2Proof.Machine

/-- INIT.C16 (R141). -/
def execInitC16 (s : State) : Result := complete { s with acc16 := Config.seed16 }

/-- FEED.C16 b: `acc16 <- (acc16 >> 8) XOR T16[acc16[7:0] XOR b]` (R142). -/
def execFeedC16 (b : Byte) (s : State) : Result :=
  whenTablesReady s
    (withEntry .c16 s.t16 (s.index16 b) fun v => complete { s with acc16 := (s.acc16 >>> 8) ^^^ v })

/-- READ.C16, as it is: no complement, reflection or byte swap (R143). -/
def execReadC16 (s : State) : Result := respondWith s.acc16 s

end Sys2Proof.Machine
end

