-- ==== Sys2Proof/Machine/Crc8.lean ====
section
/-! DEFINITION. Engine C8: INIT.C8, FEED.C8, READ.C8 (rules R120 to R123). -/

namespace Sys2Proof.Machine

/-- INIT.C8 (R121). -/
def execInitC8 (s : State) : Result := complete { s with acc8 := Config.seed8 }

/-- FEED.C8 b: `acc8 <- T8[acc8 XOR b]` (R122). -/
def execFeedC8 (b : Byte) (s : State) : Result :=
  whenTablesReady s (withEntry .c8 s.t8 (s.index8 b) fun v => complete { s with acc8 := v })

/-- READ.C8 (R123). -/
def execReadC8 (s : State) : Result := respondWith (zext16 s.acc8) s

end Sys2Proof.Machine
end

