-- ==== Sys2Proof/Machine/TableBuilder.lean ====
section
/-! DEFINITION. The table builder (rules R100 to R105) and the two table reads, TREAD.C8 and TREAD.C16 (rules R106,
R107). -/

namespace Sys2Proof.Machine

/-- One division step of the CRC-8 register, most significant bit first (R100). -/
def divStep8 (r : Byte) : Byte := if r.getLsbD 7 then (r <<< 1) ^^^ Config.poly8 else r <<< 1

/-- One division step of the reflected CRC-16 register, least significant bit first (R101). -/
def divStep16 (r : Word) : Word := if r.getLsbD 0 then (r >>> 1) ^^^ Config.poly16 else r >>> 1

/-- n steps, one after another. -/
def repeatStep {α : Type} (f : α → α) : Nat → α → α
  | 0, r => r
  | n + 1, r => repeatStep f n (f r)

/-- E8, the CRC-8 entry function: eight division steps from i (R100). -/
def entry8 (i : Byte) : Byte := repeatStep divStep8 8 i

/-- E16, the CRC-16 entry function: eight division steps from zext_16(i) (R101). -/
def entry16 (i : Byte) : Word := repeatStep divStep16 8 (zext16 i)

/-- `bidx[7:0]` (R102). -/
def State.buildIndex (s : State) : Byte := s.bidx.setWidth 8

/-- `t[i] <- v` (R11). -/
def writeEntry {w : Nat} (t : Vector (Option (BitVec w)) 256) (i : Byte) (v : BitVec w) :
    Vector (Option (BitVec w)) 256 :=
  t.set i.toNat (some v) i.isLt

/-- The builder's step: entry bidx of both tables, then the index (R102). -/
def builderStep (s : State) : State :=
  { s with
    t8 := writeEntry s.t8 s.buildIndex (entry8 s.buildIndex)
    t16 := writeEntry s.t16 s.buildIndex (entry16 s.buildIndex)
    bidx := s.bidx + 1#9 }

/-- The builder's turn: its step while `bidx < 256`, and otherwise nothing, for it has no step (R102, R103; log 3). -/
def builderTurn (s : State) : State := if s.building then builderStep s else s

/-- TREAD.C8 i (R106). -/
def execTreadC8 (i : Byte) (s : State) : Result :=
  whenTablesReady s (whenRoom s (withEntry .c8 s.t8 i fun v => complete (respond (zext16 v) s)))

/-- TREAD.C16 i (R107). -/
def execTreadC16 (i : Byte) (s : State) : Result :=
  whenTablesReady s (whenRoom s (withEntry .c16 s.t16 i fun v => complete (respond v s)))

end Sys2Proof.Machine
end

