-- ==== Sys2Proof/Machine/Xor8.lean ====
section
/-! DEFINITION. Engine X8: INIT.X8, FEED.X8, READ.X8 (rules R160 to R163). -/

namespace Sys2Proof.Machine

/-- INIT.X8 (R161). -/
def execInitX8 (s : State) : Result := complete { s with accx := Config.seedX }

/-- FEED.X8 b: `accx <- accx XOR b`, never held (R162). -/
def execFeedX8 (b : Byte) (s : State) : Result := complete { s with accx := s.accx ^^^ b }

/-- READ.X8 (R163). -/
def execReadX8 (s : State) : Result := respondWith (zext16 s.accx) s

end Sys2Proof.Machine
end

