-- ==== Sys2Proof/Machine/Dispatch.lean ====
section
/-! DEFINITION. What performing a decoded command does: one meaning per instruction, the holds of rule R238 among it. -/

namespace Sys2Proof.Machine

/-- The command agent's part of R238 after decoding: hold, or perform the instruction and advance. -/
def exec (i : Instr) (s : State) : Host.Outcome State Fault Refusal :=
  match i with
  | .nop => Sys2Proof.Machine.execNop s
  | .initC8 => Sys2Proof.Machine.execInitC8 s
  | .initC16 => Sys2Proof.Machine.execInitC16 s
  | .initX8 => Sys2Proof.Machine.execInitX8 s
  | .feedC8 b => Sys2Proof.Machine.execFeedC8 b s
  | .feedC16 b => Sys2Proof.Machine.execFeedC16 b s
  | .feedX8 b => Sys2Proof.Machine.execFeedX8 b s
  | .readC8 => Sys2Proof.Machine.execReadC8 s
  | .readC16 => Sys2Proof.Machine.execReadC16 s
  | .readX8 => Sys2Proof.Machine.execReadX8 s
  | .treadC8 k => Sys2Proof.Machine.execTreadC8 k s
  | .treadC16 k => Sys2Proof.Machine.execTreadC16 k s
  | .rreg n => Sys2Proof.Machine.execRreg n s

end Sys2Proof.Machine
end

