-- ==== Sys2Proof/Machine/Agents.lean ====
section
/-! DEFINITION. The turns of the three agents (rules R102, R230, R235, R236, R238) and which of them is next (rule
R243). -/

namespace Sys2Proof.Machine

/-- The command agent's step on the head word c: decode first, reject an illegal word, else hold or perform (R205,
R238). -/
def commandStep (c : Word) (s : State) : Result :=
  match decode c with
  | .ok i => exec i s
  | .error _ => raiseIllegal c s

/-- The command agent's turn; with no command presented it has no step (R213; log 3). -/
def commandTurn (s : State) : Result :=
  match fetch s with
  | some c => commandStep c s
  | none => hold s

/-- The host presents c at the tail of the stream (R235 a). -/
def hostPresent (c : Word) (s : State) : State := { s with stream := s.stream ++ [c] }

/-- The host removes and receives the head of the response queue, when it is not empty (R235 b, R236; log 3, log 6). -/
def hostDrain (s : State) : State :=
  match s.rspq with
  | [] => s
  | v :: rest => { s with rspq := rest, received := s.received ++ [v] }

/-- The host asserts reset: every piece of the block's state takes its value of R38, undrained responses are lost, and the
next command is the first presented afterwards (R230, R235 c; log 5). What the host has received, the turns to come and
the capacity are not the block's state and stay (log 6). -/
def hostReset (s : State) : State :=
  { State.reset with received := s.received, schedule := s.schedule, rspDepth := s.rspDepth }

/-- One atomic step of one agent (R243). -/
def takeTurn (t : Turn) (s : State) : Result :=
  match t with
  | .command => commandTurn s
  | .builder => .next (builderTurn s)
  | .present c => .next (hostPresent c s)
  | .drain => .next (hostDrain s)
  | .reset => .next (hostReset s)

/-- DESIGN CHOICE. Whose turn it is when the schedule says nothing: the builder's while it has a step, then the command
agent's. This is one of the interleavings R243 admits, the one of R108, and it is fair to both (log 2). -/
def defaultTurn (s : State) : Turn := if s.building then .builder else .command

/-- The turn the next step takes (R243; log 1, log 2). -/
def nextTurn (s : State) : Turn := s.schedule.headD (defaultTurn s)

/-- The next step of the machine: the next turn, used up, is taken (R243). -/
def takeNextTurn (s : State) : Result := takeTurn (nextTurn s) { s with schedule := s.schedule.tail }

/-- The command word c put at the head of the stream, with the next turn the command agent's (log 7). -/
def placeCommand (c : Word) (s : State) : State :=
  { s with stream := c :: s.stream, schedule := .command :: s.schedule }

end Sys2Proof.Machine
end

