-- ==== Sys2Proof/Machine/Step.lean ====
section
/-! DEFINITION. One step of the machine, and the placing of a command where the next step takes it from. -/

namespace Sys2Proof.Machine

/-- One atomic step of the agent whose turn it is (R243). -/
def step (s : State) : Host.Outcome State Fault Refusal := Sys2Proof.Machine.takeNextTurn s

/-- s with the command of the low `nbits` bits of w at the head of the command stream and the command agent to move (R35,
R238; log 7). -/
def State.withFetchWord (s : State) (nbits w : Nat) : State :=
  Sys2Proof.Machine.placeCommand (Sys2Proof.tableWord nbits w) s

end Sys2Proof.Machine
end

