-- ==== Sys2Proof/Machine/Fold.lean ====
section
/-! DEFINITION. The shared fold of rule R180 with its three instantiations, the checksums they give (rules R124, R144,
R164), the same steps without a table (rules R122, R142), and the command programs of rule R81. -/

namespace Sys2Proof.Machine

/-- `fold(seed, step, bytes)` (R180). -/
def fold {α : Type} (seed : α) (step : α → Byte → α) (bytes : List Byte) : α := bytes.foldl step seed

/-- C8's combining rule `T8[acc XOR b]` over the finished table (R122, R180). -/
def foldStep8 (acc : Byte) (b : Byte) : Byte := entry8 (acc ^^^ b)

/-- C16's combining rule `(acc >> 8) XOR T16[acc[7:0] XOR b]` over the finished table (R142, R180). -/
def foldStep16 (acc : Word) (b : Byte) : Word := (acc >>> 8) ^^^ entry16 (lowByte acc ^^^ b)

/-- X8's combining rule `acc XOR b` (R162, R180). -/
def foldStepX (acc : Byte) (b : Byte) : Byte := acc ^^^ b

/-- The CRC-8 of a byte sequence (R120, R124). -/
def crc8 (bytes : List Byte) : Byte := fold Config.seed8 foldStep8 bytes

/-- The CRC-16 of a byte sequence (R140, R144). -/
def crc16 (bytes : List Byte) : Word := fold Config.seed16 foldStep16 bytes

/-- The XOR checksum of a byte sequence (R160, R164). -/
def xor8 (bytes : List Byte) : Byte := fold Config.seedX foldStepX bytes

/-- FEED.C8 without the table: the byte into the register, then eight division steps (R122). -/
def directStep8 (acc : Byte) (b : Byte) : Byte := repeatStep divStep8 8 (acc ^^^ b)

/-- FEED.C16 without the table: the byte into the register, then eight reflected division steps (R142). -/
def directStep16 (acc : Word) (b : Byte) : Word := repeatStep divStep16 8 (acc ^^^ zext16 b)

/-- The pseudo-instruction `CRC8 b1, ..., bn` (R81). -/
def crc8Program (bytes : List Byte) : List Instr := .initC8 :: (bytes.map .feedC8 ++ [.readC8])

/-- The pseudo-instruction `CRC16 b1, ..., bn` (R81). -/
def crc16Program (bytes : List Byte) : List Instr := .initC16 :: (bytes.map .feedC16 ++ [.readC16])

/-- The pseudo-instruction `XSUM b1, ..., bn` (R81). -/
def xsumProgram (bytes : List Byte) : List Instr := .initX8 :: (bytes.map .feedX8 ++ [.readX8])

end Sys2Proof.Machine
end

