-- ==== Sys2Proof/Machine/Assembler.lean ====
section
/-! DEFINITION. The assembler text of rule R80 and the pseudo-instructions of rule R81: a line of text gives the command
words it stands for, or is refused (rule R203). Text is a list of characters. What R80 does not fix is log 12. -/

namespace Sys2Proof.Machine

/-- Why a line is refused. -/
inductive AsmError where
  /-- The first word of the line is no mnemonic of R80 or R81. -/
  | unknownMnemonic
  /-- An operand that is missing, or no number and no register name, or one where none belongs. -/
  | badOperand
  /-- A number outside 0..255, or outside 0..65535 after `.word` (R80, R203). -/
  | operandOutOfRange
  /-- RREG of a reserved register number: only `.word` writes an illegal word (R80). -/
  | reservedRegister
deriving DecidableEq, Repr

/-- The characters that separate words within a line (log 12). -/
def isBlank (c : Char) : Bool := c == ' ' || c == '\t' || c == '\r'

/-- The text without the blanks at its two ends. -/
def trimmed (text : List Char) : List Char :=
  ((text.dropWhile isBlank).reverse.dropWhile isBlank).reverse

/-- The pieces of the text between occurrences of a character; at least one. -/
def splitAtChar (sep : Char) : List Char → List (List Char)
  | [] => [[]]
  | c :: cs =>
    match splitAtChar sep cs with
    | [] => [[c]]
    | piece :: pieces => if c = sep then [] :: piece :: pieces else (c :: piece) :: pieces

/-- The value of a decimal or hexadecimal digit, in either case of letter (log 12). -/
def digitValue (c : Char) : Option Nat :=
  if '0' ≤ c ∧ c ≤ '9' then some (c.toNat - '0'.toNat)
  else if 'a' ≤ c ∧ c ≤ 'f' then some (c.toNat - 'a'.toNat + 10)
  else if 'A' ≤ c ∧ c ≤ 'F' then some (c.toNat - 'A'.toNat + 10)
  else none

/-- The number a row of digits writes in a base, most significant digit first, on top of `acc`. -/
def digits (base : Nat) : Nat → List Char → Option Nat
  | acc, [] => some acc
  | acc, c :: cs =>
    match digitValue c with
    | some d => if d < base then digits base (acc * base + d) cs else none
    | none => none

/-- A number: decimal, or hexadecimal after `0x`; at least one digit (R80). -/
def number : List Char → Option Nat
  | [] => none
  | '0' :: 'x' :: rest => if rest.isEmpty then none else digits 16 0 rest
  | text => digits 10 0 text

/-- An operand of at most `bound` (R80): refused, not truncated, when it is larger (R203). -/
def boundedNumber (bound : Nat) (text : List Char) : Except AsmError Nat :=
  match number (trimmed text) with
  | none => .error .badOperand
  | some n => if n ≤ bound then .ok n else .error .operandOutOfRange

/-- A byte or table index: a number in 0..255 (R80). -/
def byteOperand (text : List Char) : Except AsmError Byte :=
  match boundedNumber 255 text with
  | .ok n => .ok (BitVec.ofNat 8 n)
  | .error e => .error e

/-- The register names of R32, in the order of their numbers. -/
def registerNames : List (List Char) :=
  ["STATUS".toList, "BUILD_IDX".toList, "POLY8".toList, "POLY16".toList, "SEED8".toList, "SEED16".toList,
   "SEEDX".toList, "WIDTHS".toList, "ERRCMD".toList]

/-- A register: its name or its number, which must name one (R32, R80). -/
def registerOperand (text : List Char) : Except AsmError Byte :=
  let at' := registerNames.idxOf (trimmed text)
  if at' < registerNames.length then .ok (BitVec.ofNat 8 at')
  else
    match byteOperand text with
    | .ok n => if legalRegister n then .ok n else .error .reservedRegister
    | .error e => .error e

/-- Each piece read as a byte; the first refusal refuses all. -/
def byteOperands : List (List Char) → Except AsmError (List Byte)
  | [] => .ok []
  | piece :: pieces =>
    match byteOperand piece, byteOperands pieces with
    | .ok b, .ok bs => .ok (b :: bs)
    | .error e, _ => .error e
    | _, .error e => .error e

/-- The operand list of a pseudo-instruction, `b1, ..., bn`, empty for n = 0 (R81). -/
def byteList (text : List Char) : Except AsmError (List Byte) :=
  if (trimmed text).isEmpty then .ok [] else byteOperands (splitAtChar ',' text)

/-- What follows a mnemonic on its line. -/
inductive AsmForm where
  /-- Nothing. -/
  | plain (i : Instr)
  /-- The input byte of FEED. -/
  | feed (e : Engine)
  /-- The table index of TREAD.C8. -/
  | tread8
  /-- The table index of TREAD.C16. -/
  | tread16
  /-- The register of RREG. -/
  | register
  /-- The value of `.word`. -/
  | word
  /-- The bytes of a pseudo-instruction (R81). -/
  | checksum (e : Engine)
deriving DecidableEq, Repr

/-- The mnemonics of R75 and R80 and the pseudo-instructions of R81. -/
def mnemonics : List (List Char × AsmForm) :=
  [("NOP".toList, .plain .nop),
   ("INIT.C8".toList, .plain .initC8), ("INIT.C16".toList, .plain .initC16), ("INIT.X8".toList, .plain .initX8),
   ("FEED.C8".toList, .feed .c8), ("FEED.C16".toList, .feed .c16), ("FEED.X8".toList, .feed .x8),
   ("READ.C8".toList, .plain .readC8), ("READ.C16".toList, .plain .readC16), ("READ.X8".toList, .plain .readX8),
   ("TREAD.C8".toList, .tread8), ("TREAD.C16".toList, .tread16), ("RREG".toList, .register), (".word".toList, .word),
   ("CRC8".toList, .checksum .c8), ("CRC16".toList, .checksum .c16), ("XSUM".toList, .checksum .x8)]

/-- The command sequence of a pseudo-instruction (R81). -/
def checksumProgram (bytes : List Byte) : Engine → List Instr
  | .c8 => crc8Program bytes
  | .c16 => crc16Program bytes
  | .x8 => xsumProgram bytes

/-- One instruction with a byte operand, as its word. -/
def oneWord (make : Byte → Instr) : Except AsmError Byte → Except AsmError (List Word)
  | .ok b => .ok [encode (make b)]
  | .error e => .error e

/-- The words of a form with the text of its operands (R80, R81). -/
def assembleForm (form : AsmForm) (operands : List Char) : Except AsmError (List Word) :=
  match form with
  | .plain i => if (trimmed operands).isEmpty then .ok [encode i] else .error .badOperand
  | .feed e => oneWord (fun b => feedOf b e) (byteOperand operands)
  | .tread8 => oneWord .treadC8 (byteOperand operands)
  | .tread16 => oneWord .treadC16 (byteOperand operands)
  | .register => oneWord .rreg (registerOperand operands)
  | .word =>
    match boundedNumber 65535 operands with
    | .ok n => .ok [BitVec.ofNat 16 n]
    | .error e => .error e
  | .checksum e =>
    match byteList operands with
    | .ok bytes => .ok ((checksumProgram bytes e).map encode)
    | .error err => .error err

/-- One line: a comment after `;` is dropped, an empty line gives no word, and otherwise the first word is the mnemonic and
the rest its operands (R80). -/
def assembleLine (line : List Char) : Except AsmError (List Word) :=
  let text := trimmed (line.takeWhile (· ≠ ';'))
  if text.isEmpty then .ok []
  else
    match mnemonics.lookup (text.takeWhile (! isBlank ·)) with
    | none => .error .unknownMnemonic
    | some form => assembleForm form (text.dropWhile (! isBlank ·))

/-- The words of the lines, in order; the first refusal refuses all. -/
def assembleLines : List (List Char) → Except AsmError (List Word)
  | [] => .ok []
  | line :: lines =>
    match assembleLine line, assembleLines lines with
    | .ok ws, .ok rest => .ok (ws ++ rest)
    | .error e, _ => .error e
    | _, .error e => .error e

/-- The command words of a source text, one command per line (R80). -/
def assemble (source : List Char) : Except AsmError (List Word) := assembleLines (splitAtChar '\n' source)

end Sys2Proof.Machine
end

