-- ==== Sys2Proof/Safety.lean ====
section
/-! DEFINITION. The terms claims are made in: the invariant of a reachable state, a safe outcome, the end of a run (rule
R237), and what a command stream comes to when nothing is said of the builder, the queue or the interleaving (rule R185). -/

namespace Sys2Proof.Machine

/-- What holds of every state the block can be in. -/
structure State.Inv (s : State) : Prop where
  /-- "Values 257..511 never occur" (R27). -/
  bidx_le : s.bidx.toNat ≤ 256
  /-- Entries 0..bidx-1 of T8 are written, with E8, and the rest hold no value (R25, R27, R103). -/
  t8_built : ∀ i : Byte, entry s.t8 i = if i.toNat < s.bidx.toNat then some (entry8 i) else none
  /-- Entries 0..bidx-1 of T16 are written, with E16, and the rest hold no value (R25, R27, R103). -/
  t16_built : ∀ i : Byte, entry s.t16 i = if i.toNat < s.bidx.toNat then some (entry16 i) else none
  /-- RSP_DEPTH is at least 1 (R8, R34). -/
  depth_pos : 1 ≤ s.rspDepth
  /-- The queue holds 0 to RSP_DEPTH words (R20). -/
  queue_le : s.rspq.length ≤ s.rspDepth
  /-- "when err = 0 its value is 0x0000" (R29). -/
  errcmd_clear : s.err = false → s.errcmd = 0x0000#16
  /-- When err = 1, errcmd holds an illegal command word (R29, R201). -/
  errcmd_illegal : s.err = true → decode? s.errcmd = none

/-- A safe outcome: the machine goes on, in a state of the invariant. -/
def Safe (r : Result) : Prop := ∃ s, r = .next s ∧ s.Inv

/-- k steps of the machine, one after another. -/
def run (k : Nat) (s : State) : Result := Host.Core.run Sys2Proof.core k s

/-- The end of a run: every command has left the stream, the builder has no step, every response is drained (R237).
DESIGN CHOICE. "every command of the program" is read as every word presented so far that no reset has dropped: words that
present turns of the schedule have yet to bring do not count, nor do words a reset took away unperformed, so a state can
be ended and run on (log 16). -/
def State.ended (s : State) : Bool := s.stream.isEmpty && s.tablesReady && s.rspq.isEmpty

/-- `reads_table(d)`: true exactly for FEED.C8, FEED.C16, TREAD.C8 and TREAD.C16 (R238, R240). -/
def readsTable : Instr → Bool
  | .nop => false
  | .initC8 => false
  | .initC16 => false
  | .initX8 => false
  | .feedC8 _ => true
  | .feedC16 _ => true
  | .feedX8 _ => false
  | .readC8 => false
  | .readC16 => false
  | .readX8 => false
  | .treadC8 _ => true
  | .treadC16 _ => true
  | .rreg _ => false

/-- `responds(d)`: true exactly for READ.C8, READ.C16, READ.X8, TREAD.C8, TREAD.C16 and RREG (R238, R241). -/
def responds : Instr → Bool
  | .nop => false
  | .initC8 => false
  | .initC16 => false
  | .initX8 => false
  | .feedC8 _ => false
  | .feedC16 _ => false
  | .feedX8 _ => false
  | .readC8 => true
  | .readC16 => true
  | .readX8 => true
  | .treadC8 _ => true
  | .treadC16 _ => true
  | .rreg _ => true

/-- The engine whose accumulator the instruction writes: INIT and FEED, and no other (R21). -/
def writesEngine : Instr → Option Engine
  | .nop => none
  | .initC8 => some .c8
  | .initC16 => some .c16
  | .initX8 => some .x8
  | .feedC8 _ => some .c8
  | .feedC16 _ => some .c16
  | .feedX8 _ => some .x8
  | .readC8 => none
  | .readC16 => none
  | .readX8 => none
  | .treadC8 _ => none
  | .treadC16 _ => none
  | .rreg _ => none

/-- The word makes the block respond: it is legal and its instruction responds. -/
def wordResponds (c : Word) : Bool :=
  match decode? c with
  | some i => responds i
  | none => false

/-- The engine's accumulator, widened where it has eight bits. -/
def State.accumulator (s : State) : Engine → Word
  | .c8 => zext16 s.acc8
  | .c16 => s.acc16
  | .x8 => zext16 s.accx

/-- What a command stream comes to: the accumulators, the error state, and every response word so far in order, drained or
not. -/
structure View where
  acc8 : Byte
  acc16 : Word
  accx : Byte
  err : Bool
  errcmd : Word
  responses : List Word
deriving DecidableEq, Repr

/-- What is visible of a state now. -/
def State.view (s : State) : View := ⟨s.acc8, s.acc16, s.accx, s.err, s.errcmd, s.received ++ s.rspq⟩

/-- One more response. -/
def View.answer (v : View) (w : Word) : View := { v with responses := v.responses ++ [w] }

/-- The effect of an instruction on a view, with the finished tables in place of the builder (R121 to R184). For RREG of STATUS
and BUILD_IDX it says what they read once the tables are ready; `fixedAnswer` leaves these two out. -/
def View.perform (v : View) : Instr → View
  | .nop => v
  | .initC8 => { v with acc8 := Config.seed8 }
  | .initC16 => { v with acc16 := Config.seed16 }
  | .initX8 => { v with accx := Config.seedX }
  | .feedC8 b => { v with acc8 := foldStep8 v.acc8 b }
  | .feedC16 b => { v with acc16 := foldStep16 v.acc16 b }
  | .feedX8 b => { v with accx := foldStepX v.accx b }
  | .readC8 => v.answer (zext16 v.acc8)
  | .readC16 => v.answer v.acc16
  | .readX8 => v.answer (zext16 v.accx)
  | .treadC8 i => v.answer (zext16 (entry8 i))
  | .treadC16 i => v.answer (entry16 i)
  | .rreg n =>
    match n.toNat with
    | 0 => v.answer (if v.err then 0x0003#16 else 0x0001#16)
    | 1 => v.answer 0x0100#16
    | 2 => v.answer 0x0007#16
    | 3 => v.answer 0xA001#16
    | 4 => v.answer 0x0000#16
    | 5 => v.answer 0xFFFF#16
    | 6 => v.answer 0x00FF#16
    | 7 => v.answer 0x2208#16
    | _ => v.answer v.errcmd

/-- The effect of a command word on a view: an illegal one sets err and is recorded if it is the first (R202). -/
def View.command (v : View) (c : Word) : View :=
  match decode c with
  | .ok i => v.perform i
  | .error _ => { v with errcmd := if v.err then v.errcmd else c, err := true }

/-- What the stream presented so far comes to, from here. -/
def State.outlook (s : State) : View := s.stream.foldl View.command s.view

/-- The word's answer does not depend on where the builder has got to: it is no RREG of STATUS or BUILD_IDX (R185). -/
def fixedAnswer (c : Word) : Bool := c != 0x5000#16 && c != 0x5001#16

/-- The state with a schedule put before it. -/
def State.following (s : State) (turns : List Turn) : State := { s with schedule := turns }

/-- The turn is one of the block's own agents or a drain: neither a word presented nor a reset. -/
def Turn.quiet : Turn → Bool
  | .command => true
  | .builder => true
  | .present _ => false
  | .drain => true
  | .reset => false

end Sys2Proof.Machine
end

