-- ==== Sys2Proof/Certificates/Slice0/Obligations.lean ====
section
/-! DEFINITION. The statements for the provers: one `def Obligations.<Name> : Prop` each, listed in OBLIGATIONS.json. -/

open Sys2Proof Sys2Proof.Machine

/-! ## Reset -/

/-- R38: what every piece of state holds right after reset, STATUS with it; the head of the stream is the first word the
host presents. -/
def Obligations.ResetLeavesTheTabledValues : Prop :=
  State.reset.acc8 = 0x00#8 ∧ State.reset.acc16 = 0xFFFF#16 ∧ State.reset.accx = 0xFF#8 ∧
  (∀ i : Byte, entry State.reset.t8 i = none ∧ entry State.reset.t16 i = none) ∧
  State.reset.bidx = 0#9 ∧ State.reset.err = false ∧ State.reset.errcmd = 0x0000#16 ∧ State.reset.rspq = [] ∧
  State.reset.status = 0x0000#16 ∧ (∀ c : Word, fetch (hostPresent c State.reset) = some c)

/-- R230: the host's reset, from any state, is one step that sets every piece of state to its reset value and loses the
responses not yet drained; the head of the stream after it is the first command presented after it. -/
def Obligations.HostResetSetsEveryPieceOfState : Prop :=
  ∀ s : State, ∃ t : State, takeTurn .reset s = .next t ∧
    t.acc8 = 0x00#8 ∧ t.acc16 = 0xFFFF#16 ∧ t.accx = 0xFF#8 ∧
    (∀ i : Byte, entry t.t8 i = none ∧ entry t.t16 i = none) ∧
    t.bidx = 0#9 ∧ t.err = false ∧ t.errcmd = 0x0000#16 ∧ t.rspq = [] ∧
    (∀ c : Word, fetch (hostPresent c t) = some c)

/-- The model's choice (logs 1, 4, 6), over every step, a reset among them: the turn taken is used up, the capacity never
changes, and the host's record of drained words changes only on a drain. -/
def Obligations.HostsSideIsKeptByEveryStep : Prop :=
  ∀ s t : State, step s = .next t →
    t.schedule = s.schedule.tail ∧ t.rspDepth = s.rspDepth ∧ (nextTurn s ≠ .drain → t.received = s.received)

/-- R231: reset while the builder runs or after it is done restarts it from index 0, and the rebuilt tables hold what the
old ones held. -/
def Obligations.ResetRebuildsTheSameTables : Prop :=
  ∀ (s : State) (ts : List Turn), s.Inv →
    (∃ r : State, step (s.following (.reset :: List.replicate 256 .builder ++ ts)) = .next r ∧ r.bidx = 0#9) ∧
    ∃ t : State,
      run 257 (s.following (.reset :: List.replicate 256 .builder ++ ts)) = .next t ∧
      t.bidx = 256#9 ∧ t.schedule = ts ∧
      (∀ (i : Byte) (v : Byte), entry s.t8 i = some v → entry t.t8 i = some v) ∧
      (∀ (i : Byte) (v : Word), entry s.t16 i = some v → entry t.t16 i = some v)

/-! ## Encoding -/

/-- Decoding the word of a well-formed instruction gives the instruction back, with every operand. -/
def Obligations.DecodeOfEncodeIsTheInstruction : Prop :=
  ∀ i : Instr, i.wellFormed = true → decode (encode i) = .ok i

/-- Each legal word has one meaning: what it decodes to is well-formed and encodes to it. -/
def Obligations.EncodeOfDecodeIsTheWord : Prop :=
  ∀ (c : Word) (i : Instr), decode c = .ok i → encode i = c ∧ i.wellFormed = true

/-- R75: the legal words are exactly the thirteen rows of the table, each standing for its instruction with imm8 as its
operand, and every other word is illegal. -/
def Obligations.LegalWordsAreTheThirteenRows : Prop :=
  ∀ c : Word, decode? c =
    if c = 0x0000#16 then some .nop
    else if c = 0x1000#16 then some .initC8
    else if c = 0x1400#16 then some .initC16
    else if c = 0x1800#16 then some .initX8
    else if c &&& 0xFF00#16 = 0x2000#16 then some (.feedC8 (c.setWidth 8))
    else if c &&& 0xFF00#16 = 0x2400#16 then some (.feedC16 (c.setWidth 8))
    else if c &&& 0xFF00#16 = 0x2800#16 then some (.feedX8 (c.setWidth 8))
    else if c = 0x3000#16 then some .readC8
    else if c = 0x3400#16 then some .readC16
    else if c = 0x3800#16 then some .readX8
    else if c &&& 0xFF00#16 = 0x4000#16 then some (.treadC8 (c.setWidth 8))
    else if c &&& 0xFF00#16 = 0x4400#16 then some (.treadC16 (c.setWidth 8))
    else if c &&& 0xFF00#16 = 0x5000#16 ∧ (c.setWidth 8 : Byte).toNat ≤ 0x08 then some (.rreg (c.setWidth 8))
    else none

/-- R74: `rsv != 00` is illegal whatever the other fields. -/
def Obligations.ReservedBitsAreIllegal : Prop :=
  ∀ c : Word, (c.getLsbD 8 = true ∨ c.getLsbD 9 = true) → decode? c = none

/-- R76: the illegal combinations within the defined operations, by operation, engine and immediate, whatever `rsv`
is. -/
def Obligations.IllegalCombinationsAreRefused : Prop :=
  ∀ (eng : BitVec 2) (rsv : BitVec 2) (imm : Byte),
    (eng ++ rsv ++ imm ≠ 0#12 → decode? (0x0#4 ++ eng ++ rsv ++ imm) = none) ∧
    decode? (0x1#4 ++ 0b11#2 ++ rsv ++ imm) = none ∧
    decode? (0x2#4 ++ 0b11#2 ++ rsv ++ imm) = none ∧
    decode? (0x3#4 ++ 0b11#2 ++ rsv ++ imm) = none ∧
    (imm ≠ 0x00#8 → decode? (0x1#4 ++ eng ++ rsv ++ imm) = none ∧ decode? (0x3#4 ++ eng ++ rsv ++ imm) = none) ∧
    decode? (0x4#4 ++ 0b10#2 ++ rsv ++ imm) = none ∧
    decode? (0x4#4 ++ 0b11#2 ++ rsv ++ imm) = none ∧
    (eng ≠ 0b00#2 → decode? (0x5#4 ++ eng ++ rsv ++ imm) = none) ∧
    (9 ≤ imm.toNat → decode? (0x5#4 ++ eng ++ rsv ++ imm) = none)

/-- R77: every word with op in 0x6 to 0xF is illegal, and no word but 0x0000 is a NOP. -/
def Obligations.ReservedOpcodesAreIllegal : Prop :=
  ∀ c : Word, (0x6000 ≤ c.toNat → decode? c = none) ∧ (decode? c = some .nop → c = 0x0000#16)

/-- R78's count: 1296 of the 65536 words are legal. -/
def Obligations.LegalWordsNumber1296 : Prop :=
  (List.range 65536).countP (fun n => (decode? (BitVec.ofNat 16 n)).isSome) = 1296

/-- Words written out from R70's diagram and R75's table decode to what they stand for. -/
def Obligations.SampleWordsDecode : Prop :=
  decode 0b0000000000000000#16 = .ok .nop ∧
  decode 0b0001100000000000#16 = .ok .initX8 ∧
  decode 0b0010000011111111#16 = .ok (.feedC8 0xFF#8) ∧
  decode 0b0010010001000001#16 = .ok (.feedC16 0x41#8) ∧
  decode 0b0011010000000000#16 = .ok .readC16 ∧
  decode 0b0100010011111111#16 = .ok (.treadC16 0xFF#8) ∧
  decode 0b0101000000001000#16 = .ok (.rreg 0x08#8) ∧
  decode 0b0101000000001001#16 = .error .reservedRegister ∧
  decode 0b0001110000000000#16 = .error .reservedEngine

/-! ## A step -/

/-- The model's choice (log 1): a step is the atomic step of the agent at the head of the schedule, which is used up. -/
def Obligations.StepIsTheNextAgentsTurn : Prop :=
  ∀ (s : State) (t : Turn) (ts : List Turn), step (s.following (t :: ts)) = takeTurn t (s.following ts)

/-- On the command agent's turn, a legal word at the head of the stream is run: the step is exec of the decoded instruction
with the turn used up (the turn is the model's: log 1). -/
def Obligations.CommandTurnRunsTheDecodedInstruction : Prop :=
  ∀ (s : State) (ts : List Turn) (c : Word) (cs : List Word) (i : Instr),
    s.stream = c :: cs → decode c = .ok i → step (s.following (.command :: ts)) = exec i (s.following ts)

/-- The model's choice (log 2): with an empty schedule the builder steps while it can, and then the head of the stream is
run. -/
def Obligations.EmptyScheduleServesBuilderThenCommands : Prop :=
  ∀ s : State, s.schedule = [] →
    (s.bidx.toNat < 256 → step s = .next (builderStep s)) ∧
    (256 ≤ s.bidx.toNat → ∀ (c : Word) (cs : List Word) (i : Instr),
      s.stream = c :: cs → decode c = .ok i → step s = exec i s)

/-- The model's placing of a command (log 7): after withFetchWord the very next step runs the instruction of that word. -/
def Obligations.PlacedWordIsRunNext : Prop :=
  ∀ (s : State) (nbits w : Nat) (i : Instr), decodeTableWord nbits w = some i →
    step (s.withFetchWord nbits w) = exec i { s with stream := tableWord nbits w :: s.stream }

/-- R202: the command agent's step on an illegal word sets err, records the word if it is the first, changes nothing else,
gives no response, is never held, and advances past the word. -/
def Obligations.IllegalWordIsRecordedAndDropped : Prop :=
  ∀ (s : State) (c : Word) (cs : List Word), s.stream = c :: cs → decode? c = none →
    takeTurn .command s =
      .next { s with
        errcmd := if s.err = true then s.errcmd else c
        err := true
        stream := cs }

/-- R235 a: the host presents a word at the tail of the stream, and nothing else changes. -/
def Obligations.PresentedWordGoesToTheTail : Prop :=
  ∀ (s : State) (c : Word), takeTurn (.present c) s = .next { s with stream := s.stream ++ [c] }

/-- R236: a drain of a queue that is not empty takes its head word, which the host receives after those before it. -/
def Obligations.DrainTakesTheHead : Prop :=
  ∀ (s : State) (v : Word) (q : List Word), s.rspq = v :: q →
    takeTurn .drain s = .next { s with rspq := q, received := s.received ++ [v] }

/-- The model's choice (log 3): an agent given the turn while it has no step changes nothing; so with the builder done and
no command presented all state is kept (R213). -/
def Obligations.TurnsWithoutAStepChangeNothing : Prop :=
  ∀ s : State,
    (s.stream = [] → takeTurn .command s = .next s) ∧
    (256 ≤ s.bidx.toNat → takeTurn .builder s = .next s) ∧
    (s.rspq = [] → takeTurn .drain s = .next s) ∧
    (256 ≤ s.bidx.toNat → s.stream = [] → s.schedule = [] → step s = .next s)

/-! ## The instructions -/

/-- R182: NOP, the word 0x0000, does nothing but advance the stream. -/
def Obligations.NopOnlyAdvances : Prop :=
  decode 0x0000#16 = .ok .nop ∧
  ∀ s : State, exec .nop s = .next { s with stream := s.stream.tail }

/-- R121, R141, R161: INIT loads its engine's seed into its own accumulator, never holds, and changes nothing else but the
stream's head. -/
def Obligations.InitLoadsTheSeed : Prop :=
  decode 0x1000#16 = .ok .initC8 ∧ decode 0x1400#16 = .ok .initC16 ∧ decode 0x1800#16 = .ok .initX8 ∧
  ∀ s : State,
    exec .initC8 s = .next { s with acc8 := 0x00#8, stream := s.stream.tail } ∧
    exec .initC16 s = .next { s with acc16 := 0xFFFF#16, stream := s.stream.tail } ∧
    exec .initX8 s = .next { s with accx := 0xFF#8, stream := s.stream.tail }

/-- R122: FEED.C8 b holds while `bidx < 256`; then acc8 takes the T8 entry at `acc8 XOR b`, and nothing else changes but the
stream's head. That the hold shows as a step with no change is the model's choice (log 3). -/
def Obligations.FeedC8TakesTheTableEntry : Prop :=
  ∀ (s : State) (b : Byte),
    decode (0x2000#16 ||| b.setWidth 16) = .ok (.feedC8 b) ∧
    (s.bidx.toNat < 256 → exec (.feedC8 b) s = .next s) ∧
    (∀ v : Byte, 256 ≤ s.bidx.toNat → entry s.t8 (s.acc8 ^^^ b) = some v →
      exec (.feedC8 b) s = .next { s with acc8 := v, stream := s.stream.tail })

/-- R122's table-free form: in a state of the invariant with the tables ready, FEED.C8 b completes, and acc8 is
`acc8 XOR b` after eight MSB-first division steps; `b = acc8` gives 0x00. -/
def Obligations.FeedC8IsEightDivisionSteps : Prop :=
  ∀ (s : State) (b : Byte), s.Inv → s.bidx = 256#9 →
    exec (.feedC8 b) s =
      .next { s with acc8 := repeatStep divStep8 8 (s.acc8 ^^^ b), stream := s.stream.tail } ∧
    (s.acc8 = b → exec (.feedC8 b) s = .next { s with acc8 := 0x00#8, stream := s.stream.tail })

/-- R142: FEED.C16 b holds while `bidx < 256`; then acc16 takes `(acc16 >> 8) XOR T16[acc16[7:0] XOR b]`, and nothing else
changes but the stream's head. That the hold shows as a step with no change is the model's choice (log 3). -/
def Obligations.FeedC16ShiftsAndXorsTheEntry : Prop :=
  ∀ (s : State) (b : Byte),
    decode (0x2400#16 ||| b.setWidth 16) = .ok (.feedC16 b) ∧
    (s.bidx.toNat < 256 → exec (.feedC16 b) s = .next s) ∧
    (∀ v : Word, 256 ≤ s.bidx.toNat → entry s.t16 (s.acc16.setWidth 8 ^^^ b) = some v →
      exec (.feedC16 b) s = .next { s with acc16 := (s.acc16 >>> 8) ^^^ v, stream := s.stream.tail })

/-- R142's table-free form: in a state of the invariant with the tables ready, FEED.C16 b completes, and acc16 is
`acc16 XOR zext_16(b)` after eight reflected division steps; `b = acc16[7:0]` gives the plain shift. -/
def Obligations.FeedC16IsEightReflectedDivisionSteps : Prop :=
  ∀ (s : State) (b : Byte), s.Inv → s.bidx = 256#9 →
    exec (.feedC16 b) s =
      .next { s with acc16 := repeatStep divStep16 8 (s.acc16 ^^^ b.setWidth 16), stream := s.stream.tail } ∧
    (s.acc16.setWidth 8 = b →
      exec (.feedC16 b) s = .next { s with acc16 := s.acc16 >>> 8, stream := s.stream.tail })

/-- R162: FEED.X8 b XORs the byte into accx and never holds; feeding the same byte twice restores accx. -/
def Obligations.FeedX8XorsTheByte : Prop :=
  ∀ (s : State) (b : Byte),
    decode (0x2800#16 ||| b.setWidth 16) = .ok (.feedX8 b) ∧
    exec (.feedX8 b) s = .next { s with accx := s.accx ^^^ b, stream := s.stream.tail } ∧
    exec (.feedX8 b) { s with accx := s.accx ^^^ b } = .next { s with stream := s.stream.tail }

/-- R123, R143, R163: READ holds on a full queue; otherwise it answers the accumulator (zero-extended where it has eight
bits), and nothing else changes but the stream's head. That the hold shows as a step with no change is the model's choice
(log 3). -/
def Obligations.ReadDeliversTheAccumulator : Prop :=
  decode 0x3000#16 = .ok .readC8 ∧ decode 0x3400#16 = .ok .readC16 ∧ decode 0x3800#16 = .ok .readX8 ∧
  ∀ s : State,
    (s.rspq.length = s.rspDepth →
      exec .readC8 s = .next s ∧ exec .readC16 s = .next s ∧ exec .readX8 s = .next s) ∧
    (s.rspq.length ≠ s.rspDepth →
      exec .readC8 s = .next { s with rspq := s.rspq ++ [s.acc8.setWidth 16], stream := s.stream.tail } ∧
      exec .readC16 s = .next { s with rspq := s.rspq ++ [s.acc16], stream := s.stream.tail } ∧
      exec .readX8 s = .next { s with rspq := s.rspq ++ [s.accx.setWidth 16], stream := s.stream.tail })

/-- R106, R107: TREAD holds while the tables are being built or the queue is full; otherwise it answers the entry (a T8
entry zero-extended), and nothing else changes but the stream's head. That the hold shows as a step with no change is the
model's choice (log 3). -/
def Obligations.TreadAnswersTheEntry : Prop :=
  ∀ (s : State) (i : Byte),
    decode (0x4000#16 ||| i.setWidth 16) = .ok (.treadC8 i) ∧
    decode (0x4400#16 ||| i.setWidth 16) = .ok (.treadC16 i) ∧
    (s.bidx.toNat < 256 ∨ s.rspq.length = s.rspDepth →
      exec (.treadC8 i) s = .next s ∧ exec (.treadC16 i) s = .next s) ∧
    (256 ≤ s.bidx.toNat → s.rspq.length ≠ s.rspDepth →
      (∀ v : Byte, entry s.t8 i = some v →
        exec (.treadC8 i) s = .next { s with rspq := s.rspq ++ [v.setWidth 16], stream := s.stream.tail }) ∧
      (∀ v : Word, entry s.t16 i = some v →
        exec (.treadC16 i) s = .next { s with rspq := s.rspq ++ [v], stream := s.stream.tail }))

/-- R184, R32: RREG of a register 0x00 to 0x08 holds on a full queue only; otherwise it answers the register's value, and
nothing else changes but the stream's head. That the hold shows as a step with no change is the model's choice (log 3). -/
def Obligations.RregAnswersTheRegister : Prop :=
  ∀ (s : State) (n : Byte), n.toNat ≤ 8 →
    decode (0x5000#16 ||| n.setWidth 16) = .ok (.rreg n) ∧
    (s.rspq.length = s.rspDepth → exec (.rreg n) s = .next s) ∧
    (s.rspq.length ≠ s.rspDepth → ∃ v : Word,
      exec (.rreg n) s = .next { s with rspq := s.rspq ++ [v], stream := s.stream.tail } ∧
      (n = 0x00#8 → v.toNat = 2 * s.err.toNat + if s.bidx = 256#9 then 1 else 0) ∧
      (n = 0x01#8 → v.toNat = s.bidx.toNat) ∧ (n = 0x02#8 → v = 0x0007#16) ∧ (n = 0x03#8 → v = 0xA001#16) ∧
      (n = 0x04#8 → v = 0x0000#16) ∧ (n = 0x05#8 → v = 0xFFFF#16) ∧ (n = 0x06#8 → v = 0x00FF#16) ∧
      (n = 0x07#8 → v = 0x2208#16) ∧ (n = 0x08#8 → v = s.errcmd))

/-- The form of RREG that no legal word stands for: its word is illegal (R76), and the term, the model's own, has R202's effect
with that word (log 9). -/
def Obligations.RregOfReservedNumberIsIllegal : Prop :=
  ∀ (s : State) (n : Byte), 9 ≤ n.toNat →
    decode? (0x5000#16 ||| n.setWidth 16) = none ∧
    exec (.rreg n) s = .next { s with
      errcmd := if s.err = true then s.errcmd else 0x5000#16 ||| n.setWidth 16
      err := true
      stream := s.stream.tail }

/-- R240, R241: in a state of the invariant a well-formed command at the head of the stream holds exactly when it reads a
table that is not ready or would answer into a full queue. That a hold is a step with no change is the model's choice
(log 3). -/
def Obligations.CommandsHoldExactlyOnTheTwoHazards : Prop :=
  ∀ (s : State) (i : Instr), s.Inv → i.wellFormed = true → s.stream ≠ [] →
    (exec i s = .next s ↔
      (readsTable i = true ∧ s.bidx.toNat < 256) ∨ (responds i = true ∧ s.rspq.length = s.rspDepth))

/-- R25: a command that gets past the holds and reads an entry with no value faults, naming the entry. -/
def Obligations.ReadingAnUnwrittenEntryFaults : Prop :=
  ∀ (s : State) (b : Byte), 256 ≤ s.bidx.toNat →
    (entry s.t8 (s.acc8 ^^^ b) = none → exec (.feedC8 b) s = .fault (.unwrittenEntry .c8 (s.acc8 ^^^ b))) ∧
    (entry s.t16 (s.acc16.setWidth 8 ^^^ b) = none →
      exec (.feedC16 b) s = .fault (.unwrittenEntry .c16 (s.acc16.setWidth 8 ^^^ b))) ∧
    (s.rspq.length ≠ s.rspDepth →
      (entry s.t8 b = none → exec (.treadC8 b) s = .fault (.unwrittenEntry .c8 b)) ∧
      (entry s.t16 b = none → exec (.treadC16 b) s = .fault (.unwrittenEntry .c16 b)))

/-- In a state of the invariant with the tables ready and room in the queue every well-formed command completes: the machine
goes on and the stream has advanced. -/
def Obligations.EveryCommandCompletesWhenReady : Prop :=
  ∀ (s : State) (i : Instr), s.Inv → i.wellFormed = true → s.bidx = 256#9 → s.rspq.length < s.rspDepth →
    ∃ t : State, exec i s = .next t ∧ t.stream = s.stream.tail ∧ t.Inv

/-- R34, R56: READ, TREAD and RREG change no state but by appending at most one word to the queue and advancing, and the other
instructions leave the queue alone. That a hold is a step with no change is the model's choice (log 3). -/
def Obligations.RespondersOnlyAppendOneWord : Prop :=
  ∀ (s t : State) (i : Instr), i.wellFormed = true → exec i s = .next t →
    (responds i = true → t = s ∨ ∃ v : Word, t = { s with rspq := s.rspq ++ [v], stream := s.stream.tail }) ∧
    (responds i = false → t.rspq = s.rspq)

/-- R28: STATUS bit 0 is TBL_READY, bit 1 is ERR, bits 15:2 are 0. -/
def Obligations.StatusBitsAreReadyAndErr : Prop :=
  ∀ s : State, s.status.getLsbD 0 = (s.bidx == 256#9) ∧ s.status.getLsbD 1 = s.err ∧
    ∀ k : Nat, 2 ≤ k → s.status.getLsbD k = false

/-! ## The table builder -/

/-- R102: the builder has a step exactly while `bidx < 256`; it writes entry `bidx` of both tables, increments `bidx`, and
changes nothing else. That it has no step otherwise shows as no change: the model's choice (log 3). -/
def Obligations.BuilderStepWritesOneEntryOfEach : Prop :=
  ∀ s : State,
    (s.bidx.toNat < 256 → ∃ t : State, takeTurn .builder s = .next t ∧
      t.bidx.toNat = s.bidx.toNat + 1 ∧
      (∀ i : Byte, entry t.t8 i = if i.toNat = s.bidx.toNat then some (entry8 i) else entry s.t8 i) ∧
      (∀ i : Byte, entry t.t16 i = if i.toNat = s.bidx.toNat then some (entry16 i) else entry s.t16 i) ∧
      { t with t8 := s.t8, t16 := s.t16, bidx := s.bidx } = s) ∧
    (256 ≤ s.bidx.toNat → takeTurn .builder s = .next s)

/-- R105: in a state of the invariant with the tables ready both tables are linear, their entries are distinct, and six of
them have the values given. -/
def Obligations.ReadyTablesAreLinearAndInjective : Prop :=
  ∀ s : State, s.Inv → s.bidx = 256#9 →
    (∀ a b : Byte, ∃ x y : Byte, entry s.t8 a = some x ∧ entry s.t8 b = some y ∧
      entry s.t8 (a ^^^ b) = some (x ^^^ y)) ∧
    (∀ a b : Byte, ∃ x y : Word, entry s.t16 a = some x ∧ entry s.t16 b = some y ∧
      entry s.t16 (a ^^^ b) = some (x ^^^ y)) ∧
    (∀ a b : Byte, entry s.t8 a = entry s.t8 b → a = b) ∧
    (∀ v : Byte, ∃ i : Byte, entry s.t8 i = some v) ∧
    (∀ a b : Byte, entry s.t16 a = entry s.t16 b → a = b) ∧
    entry s.t8 0x00#8 = some 0x00#8 ∧ entry s.t16 0x00#8 = some 0x0000#16 ∧
    entry s.t8 0x01#8 = some 0x07#8 ∧ entry s.t8 0x80#8 = some 0x89#8 ∧ entry s.t8 0xFF#8 = some 0xF3#8 ∧
    entry s.t16 0x01#8 = some 0xC0C1#16 ∧ entry s.t16 0x80#8 = some 0xA001#16 ∧ entry s.t16 0xFF#8 = some 0x4040#16

/-- After exactly 256 builder turns from `bidx = 0` the tables are complete, STATUS.TBL_READY is 1, nothing else has changed,
and a further builder turn does nothing (the model's choice, log 3). -/
def Obligations.BuilderCompletesIn256Steps : Prop :=
  ∀ (s : State) (ts : List Turn), s.bidx = 0#9 → ∃ t : State,
    run 256 (s.following (List.replicate 256 .builder ++ ts)) = .next t ∧
    t.bidx = 256#9 ∧ t.status.getLsbD 0 = true ∧
    (∀ i : Byte, entry t.t8 i = some (entry8 i) ∧ entry t.t16 i = some (entry16 i)) ∧
    { t with t8 := s.t8, t16 := s.t16, bidx := s.bidx } = s.following ts ∧
    step (t.following (.builder :: ts)) = .next t

/-- Every hold on the tables is lifted in time: from a state of the invariant, whatever its schedule, resets among it, the
tables are ready after at most 256 steps more than the schedule has turns (the turns after the schedule are log 2's). -/
def Obligations.TablesBecomeReadyInBoundedTime : Prop :=
  ∀ s : State, s.Inv →
    ∃ (k : Nat) (t : State), k ≤ s.schedule.length + 256 ∧ run k s = .next t ∧
      t.bidx = 256#9

/-! ## Rules over every step -/

/-- The state after reset is in the invariant. -/
def Obligations.ResetStateIsInTheInvariant : Prop := State.reset.Inv

/-- From every state of the invariant, whichever agent moves, the step goes on to a state of the invariant: no fault, no
refusal, no read of an unwritten entry, no queue over its capacity. -/
def Obligations.EveryStepIsSafe : Prop := ∀ s : State, s.Inv → Safe (step s)

/-- R23, R24, R27: the tables and `bidx` are written only by the builder and reset; `bidx` never gets smaller without a
reset; an entry once written stays. -/
def Obligations.TablesAreWrittenOnlyByTheBuilder : Prop :=
  ∀ s t : State, s.Inv → step s = .next t → nextTurn s ≠ .reset →
    (nextTurn s ≠ .builder → t.t8 = s.t8 ∧ t.t16 = s.t16 ∧ t.bidx = s.bidx) ∧
    s.bidx.toNat ≤ t.bidx.toNat ∧
    (∀ (i : Byte) (v : Byte), entry s.t8 i = some v → entry t.t8 i = some v) ∧
    (∀ (i : Byte) (v : Word), entry s.t16 i = some v → entry t.t16 i = some v)

/-- R21: without a reset an accumulator changes only on a command turn whose command is the INIT or FEED of its own engine. -/
def Obligations.AccumulatorsAreWrittenOnlyByTheirEngine : Prop :=
  ∀ (s t : State) (e : Engine), step s = .next t → nextTurn s ≠ .reset → t.accumulator e ≠ s.accumulator e →
    nextTurn s = .command ∧
    ∃ (c : Word) (cs : List Word) (i : Instr), s.stream = c :: cs ∧ decode c = .ok i ∧ writesEngine i = some e

/-- R29, R36, R207: err, once set, stays set and errcmd stays, until a reset; err is set only by an illegal command, which
errcmd then holds. -/
def Obligations.ErrorIsStickyAndHoldsTheFirst : Prop :=
  ∀ s t : State, step s = .next t → nextTurn s ≠ .reset →
    (s.err = true → t.err = true ∧ t.errcmd = s.errcmd) ∧
    (s.err = false → t.err = false → t.errcmd = s.errcmd) ∧
    (s.err = false → t.err = true → nextTurn s = .command ∧
      (∃ cs : List Word, s.stream = t.errcmd :: cs ∧ t.stream = cs) ∧ decode? t.errcmd = none)

/-- R35: a command turn leaves the stream as it is (a hold: log 3) or takes its head off; the builder and a drain leave it. -/
def Obligations.StreamAdvancesByAtMostOne : Prop :=
  ∀ s t : State, step s = .next t →
    (nextTurn s = .command → t.stream = s.stream ∨ t.stream = s.stream.tail) ∧
    (nextTurn s = .builder ∨ nextTurn s = .drain → t.stream = s.stream)

/-- R59: the response words, drained or not, only grow, by at most one word a step, at the tail, and only on a command turn; the
host's record is always a prefix of them. -/
def Obligations.ResponsesLeaveInTheOrderProduced : Prop :=
  ∀ s t : State, step s = .next t → nextTurn s ≠ .reset →
    (t.received ++ t.rspq = s.received ++ s.rspq ∨
      nextTurn s = .command ∧ ∃ v : Word, t.received ++ t.rspq = (s.received ++ s.rspq) ++ [v]) ∧
    (nextTurn s ≠ .drain → t.received = s.received)

/-- R239: while the head command holds, the command agent's turn changes nothing (log 3), so no later command takes effect. -/
def Obligations.HeldHeadBlocksTheStream : Prop :=
  ∀ (s : State) (ts : List Turn) (c : Word) (cs : List Word) (i : Instr),
    s.stream = c :: cs → decode c = .ok i →
    (readsTable i = true ∧ s.bidx.toNat < 256) ∨ (responds i = true ∧ s.rspq.length = s.rspDepth) →
    step (s.following (.command :: ts)) = .next (s.following ts)

/-- R183: INIT and FEED commands of different engines, one after the other, come to the same state in either order. -/
def Obligations.DifferentEnginesCommute : Prop :=
  ∀ (s : State) (i j : Instr) (e f : Engine), s.Inv → writesEngine i = some e → writesEngine j = some f → e ≠ f →
    ∃ a b t : State, exec i s = .next a ∧ exec j a = .next t ∧ exec j s = .next b ∧ exec i b = .next t

/-- R183: what a command does to its engine's accumulator depends on that accumulator, the tables and `bidx` alone: two states
that agree on these, whatever the other engines hold, agree on it afterwards. -/
def Obligations.EngineReadsOnlyItsOwnAccumulator : Prop :=
  ∀ (s t s' t' : State) (i : Instr) (e : Engine), writesEngine i = some e →
    s.accumulator e = t.accumulator e → s.t8 = t.t8 → s.t16 = t.t16 → s.bidx = t.bidx →
    exec i s = .next s' → exec i t = .next t' → s'.accumulator e = t'.accumulator e

/-! ## Whole runs -/

/-- R180, R181: the fold, and its three instantiations, each with its own seed and combining rule. -/
def Obligations.ChecksumsAreFoldsWithTheirOwnSeedAndStep : Prop :=
  (∀ (seed : Word) (f : Word → Byte → Word) (bytes : List Byte) (b : Byte),
    fold seed f [] = seed ∧ fold seed f (bytes ++ [b]) = f (fold seed f bytes) b) ∧
  crc8 [] = 0x00#8 ∧ crc16 [] = 0xFFFF#16 ∧ xor8 [] = 0xFF#8 ∧
  ∀ (bytes : List Byte) (b : Byte),
    crc8 (bytes ++ [b]) = entry8 (crc8 bytes ^^^ b) ∧
    crc16 (bytes ++ [b]) = (crc16 bytes >>> 8) ^^^ entry16 ((crc16 bytes).setWidth 8 ^^^ b) ∧
    xor8 (bytes ++ [b]) = xor8 bytes ^^^ b

/-- R185, one step: while no word is presented and no reset comes, what the stream comes to (every accumulator, the error
state and every response in order) is the same before and after a step of any agent, for streams without RREG of STATUS or
BUILD_IDX. The outlook is computed without the builder, the queue and the interleaving. -/
def Obligations.OutlookIsKeptByEveryQuietStep : Prop :=
  ∀ s t : State, s.Inv → (∀ c ∈ s.stream, fixedAnswer c = true) → (nextTurn s).quiet = true → step s = .next t →
    t.outlook = s.outlook

/-- R185, two runs: two interleavings of the same presented stream that both get to its end have the same accumulators, the
same error state and the same responses in the same order. -/
def Obligations.InterleavingsAgreeOnEveryResponse : Prop :=
  ∀ (s t u : State) (ts us : List Turn), s.Inv → (∀ c ∈ s.stream, fixedAnswer c = true) →
    (∀ x ∈ ts, x.quiet = true) → (∀ x ∈ us, x.quiet = true) →
    run ts.length (s.following ts) = .next t →
    run us.length (s.following us) = .next u →
    t.stream = [] → u.stream = [] → t.view = u.view

/-- With an empty schedule (log 2) and room for all its responses, a presented stream is used up after the builder's
remaining steps and one step a command, and what is then visible is the outlook. Two of R237's three conditions hold then, for
the words presented so far (log 16); the third, the drain, is the host's. -/
def Obligations.PresentedStreamIsUsedUp : Prop :=
  ∀ s : State, s.Inv → s.schedule = [] → (∀ c ∈ s.stream, fixedAnswer c = true) →
    s.rspq.length + s.stream.countP wordResponds ≤ s.rspDepth →
    ∃ t : State, run ((256 - s.bidx.toNat) + s.stream.length) s = .next t ∧
      t.stream = [] ∧ t.bidx = 256#9 ∧ t.view = s.outlook

/-- R124: INIT.C8, one FEED.C8 a byte, READ.C8, at the head of the stream of a ready block, answer the CRC-8 of the bytes,
in n + 2 command turns, and change nothing else. -/
def Obligations.Crc8OfAnyByteSequence : Prop :=
  ∀ (s : State) (bytes : List Byte) (rest : List Word) (ts : List Turn), s.Inv → s.bidx = 256#9 →
    s.rspq.length < s.rspDepth → s.stream = (crc8Program bytes).map encode ++ rest →
    run (bytes.length + 2)
        (s.following (List.replicate (bytes.length + 2) .command ++ ts)) =
      .next { s with
        acc8 := crc8 bytes
        rspq := s.rspq ++ [(crc8 bytes).setWidth 16]
        stream := rest
        schedule := ts }

/-- R144: the same for INIT.C16, FEED.C16 and READ.C16 and the CRC-16 of the bytes. -/
def Obligations.Crc16OfAnyByteSequence : Prop :=
  ∀ (s : State) (bytes : List Byte) (rest : List Word) (ts : List Turn), s.Inv → s.bidx = 256#9 →
    s.rspq.length < s.rspDepth → s.stream = (crc16Program bytes).map encode ++ rest →
    run (bytes.length + 2)
        (s.following (List.replicate (bytes.length + 2) .command ++ ts)) =
      .next { s with
        acc16 := crc16 bytes
        rspq := s.rspq ++ [crc16 bytes]
        stream := rest
        schedule := ts }

/-- R164: INIT.X8, one FEED.X8 a byte, READ.X8 answer `zext_16(0xFF XOR b1 XOR ... XOR bn)`, whether or not the tables are
ready. -/
def Obligations.XorOfAnyByteSequence : Prop :=
  ∀ (s : State) (bytes : List Byte) (rest : List Word) (ts : List Turn), s.rspq.length ≠ s.rspDepth →
    s.stream = (xsumProgram bytes).map encode ++ rest →
    run (bytes.length + 2)
        (s.following (List.replicate (bytes.length + 2) .command ++ ts)) =
      .next { s with
        accx := bytes.foldl (fun a b => a ^^^ b) 0xFF#8
        rspq := s.rspq ++ [(bytes.foldl (fun a b => a ^^^ b) 0xFF#8).setWidth 16]
        stream := rest
        schedule := ts }

/-! ## Assembler text -/

/-- R203: a FEED operand outside 0..255 is refused at assembly time rather than truncated, and one within it gives the FEED
of that byte. -/
def Obligations.AssemblerRefusesAnOperandOverAByte : Prop :=
  ∀ (e : Engine) (text : List Char) (n : Nat), number (trimmed text) = some n →
    (255 < n → assembleForm (.feed e) text = .error .operandOutOfRange) ∧
    (n ≤ 255 → ∃ b : Byte, b.toNat = n ∧ assembleForm (.feed e) text = .ok [encode (feedOf b e)])

/-- R80: only `.word` writes an illegal word: whatever other mnemonic a line begins with, the words it assembles to are
legal. -/
def Obligations.OnlyDotWordWritesIllegalWords : Prop :=
  ∀ (name text : List Char) (form : AsmForm) (ws : List Word), (name, form) ∈ mnemonics → form ≠ .word →
    assembleForm form text = .ok ws → ∀ w ∈ ws, decode? w ≠ none

/-- R81: the pseudo-instructions expand to INIT, a FEED for each byte in order, and READ of their engine. -/
def Obligations.PseudoInstructionsExpand : Prop :=
  ∀ (text : List Char) (bytes : List Byte), byteList text = .ok bytes →
    assembleForm (.checksum .c8) text =
      .ok (0x1000#16 :: (bytes.map (fun b => 0x2000#16 ||| b.setWidth 16) ++ [0x3000#16])) ∧
    assembleForm (.checksum .c16) text =
      .ok (0x1400#16 :: (bytes.map (fun b => 0x2400#16 ||| b.setWidth 16) ++ [0x3400#16])) ∧
    assembleForm (.checksum .x8) text =
      .ok (0x1800#16 :: (bytes.map (fun b => 0x2800#16 ||| b.setWidth 16) ++ [0x3800#16]))
end

