-- ==== Sys2Proof/Laws/Decode.lean ====
section
/-! SUPPORT. Small facts about the fields of a command word, the decoder and the opcode table. -/

namespace Sys2Proof

/-- A word is its four fields (R70). -/
theorem word_eq_fields (c : Word) : c = opField c ++ engField c ++ rsvField c ++ immField c := by
  apply BitVec.eq_of_getLsbD_eq
  intro k hk
  simp only [opField, engField, rsvField, immField, BitVec.getLsbD_append, BitVec.getLsbD_extractLsb']
  split_ifs with h1 h2 h3
  · simp [h1]
  · simp [show k - 8 < 2 by omega, show 8 + (k - 8) = k by omega]
  · simp [show k - 8 - 2 < 2 by omega, show 10 + (k - 8 - 2) = k by omega]
  · simp [show k - 8 - 2 - 2 < 4 by omega, show 12 + (k - 8 - 2 - 2) = k by omega]

theorem decode_ok_iff {c : Word} {i : Instr} : decode c = .ok i ↔ decode? c = some i := by
  unfold decode?
  split
  · next j h => simp [h]
  · next e h => simp [h]

/-- An RREG that was decoded has a legal register number. -/
theorem legal_of_decode_rreg {c : Word} {n : Byte} (h : decode c = .ok (.rreg n)) : n.toNat ≤ 8 := by
  unfold decode decodePlain decodeFeed decodeTread decodeRreg at h
  repeat' (split at h)
  all_goals
    first
    | (injection h with h; injection h with h; subst h; simpa [legalRegister] using ‹legalRegister _ = true›)
    | (simp only [Except.ok.injEq, reduceCtorEq] at h; done)
    | (next e _ _ => cases e <;> cases h)
    | (next e _ => cases e <;> cases h)

/-- Every decoded instruction is well-formed. -/
theorem wellFormed_of_decode {c : Word} {i : Instr} (h : decode c = .ok i) : i.wellFormed = true := by
  cases i with
  | rreg n => simpa [Instr.wellFormed, legalRegister] using legal_of_decode_rreg h
  | _ => rfl

/-- No two rows of the opcode table share a word (R75). -/
theorem opcodeRows_disjoint :
    opcodeRows.Pairwise (fun a b => a.word &&& (a.mask &&& b.mask) ≠ b.word &&& (a.mask &&& b.mask)) := by
  decide

end Sys2Proof
end

