-- ==== Sys2Proof/Laws/State.lean ====
section
/-! SUPPORT. What each update of State does to each field, each true by rfl, so that no proof unfolds a record update. -/

namespace Sys2Proof.Machine

@[simp] theorem advance_acc8 (s : State) : (advance s).acc8 = s.acc8 := rfl
@[simp] theorem advance_acc16 (s : State) : (advance s).acc16 = s.acc16 := rfl
@[simp] theorem advance_accx (s : State) : (advance s).accx = s.accx := rfl
@[simp] theorem advance_t8 (s : State) : (advance s).t8 = s.t8 := rfl
@[simp] theorem advance_t16 (s : State) : (advance s).t16 = s.t16 := rfl
@[simp] theorem advance_bidx (s : State) : (advance s).bidx = s.bidx := rfl
@[simp] theorem advance_err (s : State) : (advance s).err = s.err := rfl
@[simp] theorem advance_errcmd (s : State) : (advance s).errcmd = s.errcmd := rfl
@[simp] theorem advance_rspq (s : State) : (advance s).rspq = s.rspq := rfl
@[simp] theorem advance_stream (s : State) : (advance s).stream = s.stream.tail := rfl
@[simp] theorem advance_received (s : State) : (advance s).received = s.received := rfl
@[simp] theorem advance_schedule (s : State) : (advance s).schedule = s.schedule := rfl
@[simp] theorem advance_rspDepth (s : State) : (advance s).rspDepth = s.rspDepth := rfl

@[simp] theorem respond_acc8 (v : Word) (s : State) : (respond v s).acc8 = s.acc8 := rfl
@[simp] theorem respond_acc16 (v : Word) (s : State) : (respond v s).acc16 = s.acc16 := rfl
@[simp] theorem respond_accx (v : Word) (s : State) : (respond v s).accx = s.accx := rfl
@[simp] theorem respond_t8 (v : Word) (s : State) : (respond v s).t8 = s.t8 := rfl
@[simp] theorem respond_t16 (v : Word) (s : State) : (respond v s).t16 = s.t16 := rfl
@[simp] theorem respond_bidx (v : Word) (s : State) : (respond v s).bidx = s.bidx := rfl
@[simp] theorem respond_err (v : Word) (s : State) : (respond v s).err = s.err := rfl
@[simp] theorem respond_errcmd (v : Word) (s : State) : (respond v s).errcmd = s.errcmd := rfl
@[simp] theorem respond_rspq (v : Word) (s : State) : (respond v s).rspq = s.rspq ++ [v] := rfl
@[simp] theorem respond_stream (v : Word) (s : State) : (respond v s).stream = s.stream := rfl
@[simp] theorem respond_received (v : Word) (s : State) : (respond v s).received = s.received := rfl
@[simp] theorem respond_schedule (v : Word) (s : State) : (respond v s).schedule = s.schedule := rfl
@[simp] theorem respond_rspDepth (v : Word) (s : State) : (respond v s).rspDepth = s.rspDepth := rfl

@[simp] theorem recordIllegal_acc8 (c : Word) (s : State) : (recordIllegal c s).acc8 = s.acc8 := rfl
@[simp] theorem recordIllegal_acc16 (c : Word) (s : State) : (recordIllegal c s).acc16 = s.acc16 := rfl
@[simp] theorem recordIllegal_accx (c : Word) (s : State) : (recordIllegal c s).accx = s.accx := rfl
@[simp] theorem recordIllegal_t8 (c : Word) (s : State) : (recordIllegal c s).t8 = s.t8 := rfl
@[simp] theorem recordIllegal_t16 (c : Word) (s : State) : (recordIllegal c s).t16 = s.t16 := rfl
@[simp] theorem recordIllegal_bidx (c : Word) (s : State) : (recordIllegal c s).bidx = s.bidx := rfl
@[simp] theorem recordIllegal_err (c : Word) (s : State) : (recordIllegal c s).err = true := rfl
@[simp] theorem recordIllegal_errcmd (c : Word) (s : State) : (recordIllegal c s).errcmd = (if s.err then s.errcmd else c) := rfl
@[simp] theorem recordIllegal_rspq (c : Word) (s : State) : (recordIllegal c s).rspq = s.rspq := rfl
@[simp] theorem recordIllegal_stream (c : Word) (s : State) : (recordIllegal c s).stream = s.stream := rfl
@[simp] theorem recordIllegal_received (c : Word) (s : State) : (recordIllegal c s).received = s.received := rfl
@[simp] theorem recordIllegal_schedule (c : Word) (s : State) : (recordIllegal c s).schedule = s.schedule := rfl
@[simp] theorem recordIllegal_rspDepth (c : Word) (s : State) : (recordIllegal c s).rspDepth = s.rspDepth := rfl

@[simp] theorem builderStep_acc8 (s : State) : (builderStep s).acc8 = s.acc8 := rfl
@[simp] theorem builderStep_acc16 (s : State) : (builderStep s).acc16 = s.acc16 := rfl
@[simp] theorem builderStep_accx (s : State) : (builderStep s).accx = s.accx := rfl
@[simp] theorem builderStep_t8 (s : State) : (builderStep s).t8 = writeEntry s.t8 s.buildIndex (entry8 s.buildIndex) := rfl
@[simp] theorem builderStep_t16 (s : State) : (builderStep s).t16 = writeEntry s.t16 s.buildIndex (entry16 s.buildIndex) := rfl
@[simp] theorem builderStep_bidx (s : State) : (builderStep s).bidx = s.bidx + 1#9 := rfl
@[simp] theorem builderStep_err (s : State) : (builderStep s).err = s.err := rfl
@[simp] theorem builderStep_errcmd (s : State) : (builderStep s).errcmd = s.errcmd := rfl
@[simp] theorem builderStep_rspq (s : State) : (builderStep s).rspq = s.rspq := rfl
@[simp] theorem builderStep_stream (s : State) : (builderStep s).stream = s.stream := rfl
@[simp] theorem builderStep_received (s : State) : (builderStep s).received = s.received := rfl
@[simp] theorem builderStep_schedule (s : State) : (builderStep s).schedule = s.schedule := rfl
@[simp] theorem builderStep_rspDepth (s : State) : (builderStep s).rspDepth = s.rspDepth := rfl

@[simp] theorem hostPresent_acc8 (c : Word) (s : State) : (hostPresent c s).acc8 = s.acc8 := rfl
@[simp] theorem hostPresent_acc16 (c : Word) (s : State) : (hostPresent c s).acc16 = s.acc16 := rfl
@[simp] theorem hostPresent_accx (c : Word) (s : State) : (hostPresent c s).accx = s.accx := rfl
@[simp] theorem hostPresent_t8 (c : Word) (s : State) : (hostPresent c s).t8 = s.t8 := rfl
@[simp] theorem hostPresent_t16 (c : Word) (s : State) : (hostPresent c s).t16 = s.t16 := rfl
@[simp] theorem hostPresent_bidx (c : Word) (s : State) : (hostPresent c s).bidx = s.bidx := rfl
@[simp] theorem hostPresent_err (c : Word) (s : State) : (hostPresent c s).err = s.err := rfl
@[simp] theorem hostPresent_errcmd (c : Word) (s : State) : (hostPresent c s).errcmd = s.errcmd := rfl
@[simp] theorem hostPresent_rspq (c : Word) (s : State) : (hostPresent c s).rspq = s.rspq := rfl
@[simp] theorem hostPresent_stream (c : Word) (s : State) : (hostPresent c s).stream = s.stream ++ [c] := rfl
@[simp] theorem hostPresent_received (c : Word) (s : State) : (hostPresent c s).received = s.received := rfl
@[simp] theorem hostPresent_schedule (c : Word) (s : State) : (hostPresent c s).schedule = s.schedule := rfl
@[simp] theorem hostPresent_rspDepth (c : Word) (s : State) : (hostPresent c s).rspDepth = s.rspDepth := rfl

@[simp] theorem hostReset_acc8 (s : State) : (hostReset s).acc8 = State.reset.acc8 := rfl
@[simp] theorem hostReset_acc16 (s : State) : (hostReset s).acc16 = State.reset.acc16 := rfl
@[simp] theorem hostReset_accx (s : State) : (hostReset s).accx = State.reset.accx := rfl
@[simp] theorem hostReset_t8 (s : State) : (hostReset s).t8 = State.reset.t8 := rfl
@[simp] theorem hostReset_t16 (s : State) : (hostReset s).t16 = State.reset.t16 := rfl
@[simp] theorem hostReset_bidx (s : State) : (hostReset s).bidx = State.reset.bidx := rfl
@[simp] theorem hostReset_err (s : State) : (hostReset s).err = State.reset.err := rfl
@[simp] theorem hostReset_errcmd (s : State) : (hostReset s).errcmd = State.reset.errcmd := rfl
@[simp] theorem hostReset_rspq (s : State) : (hostReset s).rspq = State.reset.rspq := rfl
@[simp] theorem hostReset_stream (s : State) : (hostReset s).stream = State.reset.stream := rfl
@[simp] theorem hostReset_received (s : State) : (hostReset s).received = s.received := rfl
@[simp] theorem hostReset_schedule (s : State) : (hostReset s).schedule = s.schedule := rfl
@[simp] theorem hostReset_rspDepth (s : State) : (hostReset s).rspDepth = s.rspDepth := rfl

@[simp] theorem following_acc8 (s : State) (ts : List Turn) : (s.following ts).acc8 = s.acc8 := rfl
@[simp] theorem following_acc16 (s : State) (ts : List Turn) : (s.following ts).acc16 = s.acc16 := rfl
@[simp] theorem following_accx (s : State) (ts : List Turn) : (s.following ts).accx = s.accx := rfl
@[simp] theorem following_t8 (s : State) (ts : List Turn) : (s.following ts).t8 = s.t8 := rfl
@[simp] theorem following_t16 (s : State) (ts : List Turn) : (s.following ts).t16 = s.t16 := rfl
@[simp] theorem following_bidx (s : State) (ts : List Turn) : (s.following ts).bidx = s.bidx := rfl
@[simp] theorem following_err (s : State) (ts : List Turn) : (s.following ts).err = s.err := rfl
@[simp] theorem following_errcmd (s : State) (ts : List Turn) : (s.following ts).errcmd = s.errcmd := rfl
@[simp] theorem following_rspq (s : State) (ts : List Turn) : (s.following ts).rspq = s.rspq := rfl
@[simp] theorem following_stream (s : State) (ts : List Turn) : (s.following ts).stream = s.stream := rfl
@[simp] theorem following_received (s : State) (ts : List Turn) : (s.following ts).received = s.received := rfl
@[simp] theorem following_schedule (s : State) (ts : List Turn) : (s.following ts).schedule = ts := rfl
@[simp] theorem following_rspDepth (s : State) (ts : List Turn) : (s.following ts).rspDepth = s.rspDepth := rfl

theorem following_schedule_self (s : State) : s.following s.schedule = s := rfl

@[simp] theorem following_following (s : State) (ts us : List Turn) : (s.following ts).following us = s.following us := rfl

end Sys2Proof.Machine
end

