-- ==== Sys2Proof/Laws/Tables.lean ====
section
/-! SUPPORT. What the table operations do: reading an entry after a write, and the tables at reset. -/

namespace Sys2Proof.Machine

theorem entry_writeEntry {w : Nat} (t : Vector (Option (BitVec w)) 256) (i j : Byte) (v : BitVec w) :
    entry (writeEntry t i v) j = if i = j then some v else entry t j := by
  simp only [entry, writeEntry, Vector.getElem_set, BitVec.toNat_inj]

@[simp] theorem entry_writeEntry_self {w : Nat} (t : Vector (Option (BitVec w)) 256) (i : Byte) (v : BitVec w) :
    entry (writeEntry t i v) i = some v := by
  simp [entry_writeEntry]

theorem entry_writeEntry_of_ne {w : Nat} (t : Vector (Option (BitVec w)) 256) {i j : Byte} (v : BitVec w)
    (h : i ≠ j) : entry (writeEntry t i v) j = entry t j := by
  simp [entry_writeEntry, h]

@[simp] theorem entry_replicate_none {w : Nat} (i : Byte) :
    entry (Vector.replicate 256 (none : Option (BitVec w))) i = none := by
  simp [entry]

/-- Two tables with the same entries are the same table. -/
theorem table_ext {w : Nat} {t u : Vector (Option (BitVec w)) 256} (h : ∀ i : Byte, entry t i = entry u i) :
    t = u := by
  apply Vector.ext
  intro k hk
  have := h (BitVec.ofNat 8 k)
  simpa [entry, Nat.mod_eq_of_lt hk] using this

theorem building_iff (s : State) : s.building = true ↔ s.bidx.toNat < 256 := by simp [State.building]

theorem building_eq_false_iff (s : State) : s.building = false ↔ 256 ≤ s.bidx.toNat := by
  simp [State.building]

theorem tablesReady_iff (s : State) : s.tablesReady = true ↔ s.bidx = 256#9 := by
  simp [State.tablesReady, ← BitVec.toNat_inj]

/-- While the builder has a step, `bidx[7:0]` is `bidx`. -/
theorem buildIndex_toNat {s : State} (h : s.bidx.toNat < 256) : s.buildIndex.toNat = s.bidx.toNat := by
  simp [State.buildIndex, BitVec.toNat_setWidth, Nat.mod_eq_of_lt h]

/-- While the builder has a step, incrementing the index does not wrap. -/
theorem builderStep_bidx_toNat {s : State} (h : s.bidx.toNat < 256) :
    (builderStep s).bidx.toNat = s.bidx.toNat + 1 := by
  simp only [builderStep_bidx, BitVec.toNat_add]
  have : (1#9).toNat = 1 := rfl
  omega

/-- What a builder step leaves in a table at index i. -/
theorem entry_builderStep {w : Nat} {s : State} (t : Vector (Option (BitVec w)) 256) (f : Byte → BitVec w)
    (h : s.bidx.toNat < 256) (i : Byte) :
    entry (writeEntry t s.buildIndex (f s.buildIndex)) i =
      if i.toNat = s.bidx.toNat then some (f i) else entry t i := by
  rw [entry_writeEntry]
  by_cases hi : s.buildIndex = i
  · subst hi
    simp [buildIndex_toNat h]
  · have : ¬ i.toNat = s.bidx.toNat := fun e => hi (BitVec.eq_of_toNat_eq (by rw [buildIndex_toNat h, e]))
    simp [hi, this]

theorem builderTurn_of_building {s : State} (h : s.bidx.toNat < 256) : builderTurn s = builderStep s := by
  simp [builderTurn, (building_iff s).2 h]

theorem builderTurn_of_done {s : State} (h : 256 ≤ s.bidx.toNat) : builderTurn s = s := by
  simp [builderTurn, (building_eq_false_iff s).2 h]

end Sys2Proof.Machine
end

