-- ==== Sys2Proof/Laws/Ops.lean ====
section
/-! SUPPORT. What each shared operation of the meanings answers, and what it leaves: cited in place of unfolding it. -/

namespace Sys2Proof.Machine

theorem whenTablesReady_of_building {s : State} (h : s.bidx.toNat < 256) (r : Result) :
    whenTablesReady s r = .next s := by
  simp [whenTablesReady, (building_iff s).2 h, hold]

theorem whenTablesReady_of_done {s : State} (h : 256 ≤ s.bidx.toNat) (r : Result) : whenTablesReady s r = r := by
  simp [whenTablesReady, (building_eq_false_iff s).2 h]

theorem whenRoom_of_full {s : State} (h : s.rspq.length = s.rspDepth) (r : Result) : whenRoom s r = .next s := by
  simp [whenRoom, State.queueFull, h, hold]

theorem whenRoom_of_room {s : State} (h : s.rspq.length ≠ s.rspDepth) (r : Result) : whenRoom s r = r := by
  simp [whenRoom, State.queueFull, h]

theorem withEntry_of_some {w : Nat} {e : Engine} {t : Vector (Option (BitVec w)) 256} {i : Byte} {v : BitVec w}
    (h : entry t i = some v) (use : BitVec w → Result) : withEntry e t i use = use v := by
  simp [withEntry, h]

theorem withEntry_of_none {w : Nat} {e : Engine} {t : Vector (Option (BitVec w)) 256} {i : Byte}
    (h : entry t i = none) (use : BitVec w → Result) : withEntry e t i use = .fault (.unwrittenEntry e i) := by
  simp [withEntry, h]

/-- Everything a hold on the tables can end in. -/
theorem whenTablesReady_next {s t : State} {r : Result} (h : whenTablesReady s r = .next t) :
    t = s ∨ (256 ≤ s.bidx.toNat ∧ r = .next t) := by
  by_cases hb : s.bidx.toNat < 256
  · rw [whenTablesReady_of_building hb] at h
    injection h with h
    exact .inl h.symm
  · rw [whenTablesReady_of_done (by omega)] at h
    exact .inr ⟨by omega, h⟩

/-- Everything a hold on the queue can end in. -/
theorem whenRoom_next {s t : State} {r : Result} (h : whenRoom s r = .next t) :
    t = s ∨ (s.rspq.length ≠ s.rspDepth ∧ r = .next t) := by
  by_cases hq : s.rspq.length = s.rspDepth
  · rw [whenRoom_of_full hq] at h
    injection h with h
    exact .inl h.symm
  · rw [whenRoom_of_room hq] at h
    exact .inr ⟨hq, h⟩

/-- Everything a table read can end in when it goes on. -/
theorem withEntry_next {w : Nat} {e : Engine} {t : Vector (Option (BitVec w)) 256} {i : Byte}
    {use : BitVec w → Result} {u : State} (h : withEntry e t i use = .next u) :
    ∃ v, entry t i = some v ∧ use v = .next u := by
  unfold withEntry at h
  split at h
  · next v hv => exact ⟨v, hv, h⟩
  · cases h

/-- Everything a command whose effect is one response can end in. -/
theorem respondWith_next {v : Word} {s t : State} (h : respondWith v s = .next t) :
    t = s ∨ (s.rspq.length ≠ s.rspDepth ∧ t = advance (respond v s)) := by
  rcases whenRoom_next h with h | ⟨hq, h⟩
  · exact .inl h
  · injection h with h
    exact .inr ⟨hq, h.symm⟩

theorem respondWith_of_room {v : Word} {s : State} (h : s.rspq.length ≠ s.rspDepth) :
    respondWith v s = .next (advance (respond v s)) := whenRoom_of_room h _

theorem respondWith_of_full {v : Word} {s : State} (h : s.rspq.length = s.rspDepth) :
    respondWith v s = .next s := whenRoom_of_full h _

@[simp] theorem complete_next {s t : State} : complete s = .next t ↔ t = advance s := by
  simp only [complete, Host.Outcome.next.injEq]
  exact eq_comm

/-- The low byte of a word is its truncation to eight bits. -/
theorem lowByte_eq_setWidth (v : Word) : lowByte v = v.setWidth 8 := by
  apply BitVec.eq_of_getLsbD_eq
  intro k hk
  simp [lowByte, BitVec.getLsbD_extractLsb', BitVec.getLsbD_setWidth]

/-- The registers 0x00 to 0x08 have a value and no other number does. -/
theorem register_isSome (s : State) (n : Byte) : (s.register n).isSome = decide (n.toNat ≤ 8) := by
  by_cases h : n.toNat ≤ 8
  · have : n = 0#8 ∨ n = 1#8 ∨ n = 2#8 ∨ n = 3#8 ∨ n = 4#8 ∨ n = 5#8 ∨ n = 6#8 ∨ n = 7#8 ∨ n = 8#8 := by
      simp only [← BitVec.toNat_inj, BitVec.toNat_ofNat]
      omega
    rcases this with rfl | rfl | rfl | rfl | rfl | rfl | rfl | rfl | rfl <;> simp [State.register]
  · have hn : ∀ k : Nat, k ≤ 8 → n ≠ BitVec.ofNat 8 k := by
      intro k hk e
      apply h
      rw [e, BitVec.toNat_ofNat]
      omega
    simp [State.register, h, hn 0, hn 1, hn 2, hn 3, hn 4, hn 5, hn 6, hn 7, hn 8]

theorem register_of_legal (s : State) {n : Byte} (h : n.toNat ≤ 8) : ∃ v, s.register n = some v := by
  have := register_isSome s n
  rw [decide_eq_true h] at this
  exact Option.isSome_iff_exists.1 this

theorem register_of_reserved (s : State) {n : Byte} (h : 9 ≤ n.toNat) : s.register n = none := by
  have := register_isSome s n
  rw [decide_eq_false (by omega)] at this
  simpa using this

end Sys2Proof.Machine
end

