-- ==== Sys2Proof/Laws/Exec.lean ====
section
/-! SUPPORT. Said once: everything exec and step can do when they go on. Invariants are derived from these, without
unfolding a meaning. -/

namespace Sys2Proof.Machine

/-- The effect of a performed instruction, before the stream advances. -/
inductive Effect (s : State) : Instr → State → Prop where
  | nop : Effect s .nop s
  | initC8 : Effect s .initC8 { s with acc8 := Config.seed8 }
  | initC16 : Effect s .initC16 { s with acc16 := Config.seed16 }
  | initX8 : Effect s .initX8 { s with accx := Config.seedX }
  | feedC8 (b v : Byte) (ready : 256 ≤ s.bidx.toNat) (read : entry s.t8 (s.index8 b) = some v) :
      Effect s (.feedC8 b) { s with acc8 := v }
  | feedC16 (b : Byte) (v : Word) (ready : 256 ≤ s.bidx.toNat) (read : entry s.t16 (s.index16 b) = some v) :
      Effect s (.feedC16 b) { s with acc16 := (s.acc16 >>> 8) ^^^ v }
  | feedX8 (b : Byte) : Effect s (.feedX8 b) { s with accx := s.accx ^^^ b }
  | readC8 (room : s.rspq.length ≠ s.rspDepth) : Effect s .readC8 (respond (zext16 s.acc8) s)
  | readC16 (room : s.rspq.length ≠ s.rspDepth) : Effect s .readC16 (respond s.acc16 s)
  | readX8 (room : s.rspq.length ≠ s.rspDepth) : Effect s .readX8 (respond (zext16 s.accx) s)
  | treadC8 (i v : Byte) (ready : 256 ≤ s.bidx.toNat) (room : s.rspq.length ≠ s.rspDepth)
      (read : entry s.t8 i = some v) : Effect s (.treadC8 i) (respond (zext16 v) s)
  | treadC16 (i : Byte) (v : Word) (ready : 256 ≤ s.bidx.toNat) (room : s.rspq.length ≠ s.rspDepth)
      (read : entry s.t16 i = some v) : Effect s (.treadC16 i) (respond v s)
  | rreg (n : Byte) (v : Word) (room : s.rspq.length ≠ s.rspDepth) (read : s.register n = some v) :
      Effect s (.rreg n) (respond v s)
  | rregReserved (n : Byte) (read : s.register n = none) :
      Effect s (.rreg n) (recordIllegal (encode (.rreg n)) s)

/-- When exec goes on, the command held and nothing changed, or it had its effect and the stream advanced. -/
theorem exec_next_cases {i : Instr} {s t : State} (h : exec i s = .next t) :
    t = s ∨ ∃ u, Effect s i u ∧ t = advance u := by
  cases i with
  | nop => exact .inr ⟨_, .nop, complete_next.1 h⟩
  | initC8 => exact .inr ⟨_, .initC8, complete_next.1 h⟩
  | initC16 => exact .inr ⟨_, .initC16, complete_next.1 h⟩
  | initX8 => exact .inr ⟨_, .initX8, complete_next.1 h⟩
  | feedC8 b =>
    rcases whenTablesReady_next h with h | ⟨hr, h⟩
    · exact .inl h
    · obtain ⟨v, hv, h⟩ := withEntry_next h
      exact .inr ⟨_, .feedC8 b v hr hv, complete_next.1 h⟩
  | feedC16 b =>
    rcases whenTablesReady_next h with h | ⟨hr, h⟩
    · exact .inl h
    · obtain ⟨v, hv, h⟩ := withEntry_next h
      exact .inr ⟨_, .feedC16 b v hr hv, complete_next.1 h⟩
  | feedX8 b => exact .inr ⟨_, .feedX8 b, complete_next.1 h⟩
  | readC8 =>
    rcases respondWith_next h with h | ⟨hq, h⟩
    · exact .inl h
    · exact .inr ⟨_, .readC8 hq, h⟩
  | readC16 =>
    rcases respondWith_next h with h | ⟨hq, h⟩
    · exact .inl h
    · exact .inr ⟨_, .readC16 hq, h⟩
  | readX8 =>
    rcases respondWith_next h with h | ⟨hq, h⟩
    · exact .inl h
    · exact .inr ⟨_, .readX8 hq, h⟩
  | treadC8 k =>
    rcases whenTablesReady_next h with h | ⟨hr, h⟩
    · exact .inl h
    rcases whenRoom_next h with h | ⟨hq, h⟩
    · exact .inl h
    obtain ⟨v, hv, h⟩ := withEntry_next h
    exact .inr ⟨_, .treadC8 k v hr hq hv, complete_next.1 h⟩
  | treadC16 k =>
    rcases whenTablesReady_next h with h | ⟨hr, h⟩
    · exact .inl h
    rcases whenRoom_next h with h | ⟨hq, h⟩
    · exact .inl h
    obtain ⟨v, hv, h⟩ := withEntry_next h
    exact .inr ⟨_, .treadC16 k v hr hq hv, complete_next.1 h⟩
  | rreg n =>
    change execRreg n s = _ at h
    unfold execRreg at h
    split at h
    · next v hv =>
      rcases respondWith_next h with h | ⟨hq, h⟩
      · exact .inl h
      · exact .inr ⟨_, .rreg n v hq hv, h⟩
    · next hv => exact .inr ⟨_, .rregReserved n hv, complete_next.1 h⟩

/-- A step takes the next turn with the rest of the schedule. -/
theorem step_eq (s : State) : step s = takeTurn (nextTurn s) (s.following s.schedule.tail) := rfl

theorem step_following_cons (s : State) (t : Turn) (ts : List Turn) :
    step (s.following (t :: ts)) = takeTurn t (s.following ts) := rfl

theorem commandTurn_nil {s : State} (h : s.stream = []) : commandTurn s = .next s := by
  simp [commandTurn, fetch, h, hold]

theorem commandTurn_cons {s : State} {c : Word} {cs : List Word} (h : s.stream = c :: cs) :
    commandTurn s = commandStep c s := by
  simp [commandTurn, fetch, h]

theorem commandStep_ok {c : Word} {i : Instr} (h : decode c = .ok i) (s : State) : commandStep c s = exec i s := by
  simp [commandStep, h]

theorem commandStep_illegal {c : Word} (h : decode? c = none) (s : State) :
    commandStep c s = .next (advance (recordIllegal c s)) := by
  cases hd : decode c with
  | ok i => simp [decode?, hd] at h
  | error e => simp [commandStep, hd, raiseIllegal, complete]

/-- Everything a command turn can end in when it goes on: no change (no command, or a hold), an instruction's effect, or an
illegal word's. -/
theorem commandTurn_next_cases {s t : State} (h : commandTurn s = .next t) :
    t = s ∨
    (∃ c cs i u, s.stream = c :: cs ∧ decode c = .ok i ∧ Effect s i u ∧ t = advance u) ∨
    (∃ c cs, s.stream = c :: cs ∧ decode? c = none ∧ t = advance (recordIllegal c s)) := by
  cases hs : s.stream with
  | nil =>
    rw [commandTurn_nil hs] at h
    injection h with h
    exact .inl h.symm
  | cons c cs =>
    rw [commandTurn_cons hs] at h
    cases hd : decode c with
    | ok i =>
      rw [commandStep_ok hd] at h
      rcases exec_next_cases h with h | ⟨u, hu, h⟩
      · exact .inl h
      · exact .inr (.inl ⟨c, cs, i, u, rfl, hd, hu, h⟩)
    | error e =>
      have hn : decode? c = none := by simp [decode?, hd]
      rw [commandStep_illegal hn] at h
      injection h with h
      exact .inr (.inr ⟨c, cs, rfl, hn, h.symm⟩)

/-- Everything a drain can do. -/
theorem hostDrain_cases (s : State) :
    (s.rspq = [] ∧ hostDrain s = s) ∨
    ∃ v q, s.rspq = v :: q ∧ hostDrain s = { s with rspq := q, received := s.received ++ [v] } := by
  unfold hostDrain
  split
  · next h => exact .inl ⟨h, rfl⟩
  · next v q h => exact .inr ⟨v, q, h, rfl⟩

/-- An effect writes no table, no index and nothing of the host's side. -/
theorem Effect.frame {s u : State} {i : Instr} (h : Effect s i u) :
    u.t8 = s.t8 ∧ u.t16 = s.t16 ∧ u.bidx = s.bidx ∧ u.stream = s.stream ∧ u.received = s.received ∧
      u.schedule = s.schedule ∧ u.rspDepth = s.rspDepth := by
  cases h <;> exact ⟨rfl, rfl, rfl, rfl, rfl, rfl, rfl⟩

/-- A builder's turn writes the tables and the index only. -/
theorem builderTurn_frame (s : State) :
    { builderTurn s with t8 := s.t8, t16 := s.t16, bidx := s.bidx } = s := by
  unfold builderTurn
  split <;> rfl

/-- A drain moves a word from the queue to the host's record, and writes nothing else. -/
theorem hostDrain_frame (s : State) :
    { hostDrain s with rspq := s.rspq, received := s.received } = s ∧
      (hostDrain s).received ++ (hostDrain s).rspq = s.received ++ s.rspq := by
  rcases hostDrain_cases s with ⟨_, h⟩ | ⟨v, q, hq, h⟩ <;> rw [h]
  · exact ⟨rfl, rfl⟩
  · exact ⟨rfl, by simp [hq]⟩

/-- Everything a step can do when it goes on: the turn of one agent, with the rest of the schedule. -/
theorem step_next_cases {s t : State} (h : step s = .next t) :
    (nextTurn s = .command ∧ commandTurn (s.following s.schedule.tail) = .next t) ∨
    (nextTurn s = .builder ∧ t = builderTurn (s.following s.schedule.tail)) ∨
    (∃ c, nextTurn s = .present c ∧ t = hostPresent c (s.following s.schedule.tail)) ∨
    (nextTurn s = .drain ∧ t = hostDrain (s.following s.schedule.tail)) ∨
    (nextTurn s = .reset ∧ t = hostReset (s.following s.schedule.tail)) := by
  rw [step_eq] at h
  cases hn : nextTurn s <;> rw [hn] at h
  · exact .inl ⟨rfl, h⟩
  · injection h with h
    exact .inr (.inl ⟨rfl, h.symm⟩)
  · injection h with h
    exact .inr (.inr (.inl ⟨_, rfl, h.symm⟩))
  · injection h with h
    exact .inr (.inr (.inr (.inl ⟨rfl, h.symm⟩)))
  · injection h with h
    exact .inr (.inr (.inr (.inr ⟨rfl, h.symm⟩)))

end Sys2Proof.Machine
end

