-- ==== Sys2Proof/Laws/Inv.lean ====
section
/-! SUPPORT. Small facts about the invariant: what it depends on, and what it says of ready tables. -/

namespace Sys2Proof.Machine

/-- The invariant is of the tables, the index, the error state, the capacity and the queue's length only. -/
theorem State.Inv.congr {s t : State} (h : s.Inv) (h8 : t.t8 = s.t8) (h16 : t.t16 = s.t16) (hb : t.bidx = s.bidx)
    (hd : t.rspDepth = s.rspDepth) (hq : t.rspq.length ≤ s.rspDepth) (he : t.err = s.err)
    (hc : t.errcmd = s.errcmd) : t.Inv where
  bidx_le := by rw [hb]; exact h.bidx_le
  t8_built := by rw [h8, hb]; exact h.t8_built
  t16_built := by rw [h16, hb]; exact h.t16_built
  depth_pos := by rw [hd]; exact h.depth_pos
  queue_le := by rw [hd]; exact hq
  errcmd_clear := by rw [he, hc]; exact h.errcmd_clear
  errcmd_illegal := by rw [he, hc]; exact h.errcmd_illegal

theorem State.Inv.following {s : State} (h : s.Inv) (ts : List Turn) : (s.following ts).Inv :=
  h.congr rfl rfl rfl rfl h.queue_le rfl rfl

/-- With the tables ready every entry of T8 is E8's. -/
theorem State.Inv.entry8_of_done {s : State} (h : s.Inv) (hb : 256 ≤ s.bidx.toNat) (i : Byte) :
    entry s.t8 i = some (entry8 i) := by
  rw [h.t8_built, if_pos (Nat.lt_of_lt_of_le i.isLt hb)]

/-- With the tables ready every entry of T16 is E16's. -/
theorem State.Inv.entry16_of_done {s : State} (h : s.Inv) (hb : 256 ≤ s.bidx.toNat) (i : Byte) :
    entry s.t16 i = some (entry16 i) := by
  rw [h.t16_built, if_pos (Nat.lt_of_lt_of_le i.isLt hb)]

end Sys2Proof.Machine
end

