-- ==== Sys2Proof/Laws/PerInstr.lean ====
section
/-! SUPPORT. The family RowHolds, one lemma per instruction: its word is one of the row of rule R75's table that it stands
for. -/

namespace Sys2Proof.Laws.RowHolds

/-- The instruction's row is a row of the table, and its word is one of that row's when the instruction is well-formed. -/
def Statement (i : Instr) : Prop :=
  i.row ∈ opcodeRows ∧ (i.wellFormed = true → i.row.holds (encode i) = true)

theorem nop : Statement .nop := by unfold Statement; decide
theorem initC8 : Statement .initC8 := by unfold Statement; decide
theorem initC16 : Statement .initC16 := by unfold Statement; decide
theorem initX8 : Statement .initX8 := by unfold Statement; decide
theorem feedC8 (b : Byte) : Statement (.feedC8 b) := by unfold Statement; revert b; decide
theorem feedC16 (b : Byte) : Statement (.feedC16 b) := by unfold Statement; revert b; decide
theorem feedX8 (b : Byte) : Statement (.feedX8 b) := by unfold Statement; revert b; decide
theorem readC8 : Statement .readC8 := by unfold Statement; decide
theorem readC16 : Statement .readC16 := by unfold Statement; decide
theorem readX8 : Statement .readX8 := by unfold Statement; decide
theorem treadC8 (i : Byte) : Statement (.treadC8 i) := by unfold Statement; revert i; decide
theorem treadC16 (i : Byte) : Statement (.treadC16 i) := by unfold Statement; revert i; decide
theorem rreg (n : Byte) : Statement (.rreg n) := by unfold Statement; revert n; decide

end Sys2Proof.Laws.RowHolds
end

