-- ==== Sys2Proof/Laws/Run.lean ====
section
/-! SUPPORT. Runs of several steps, one step at a time and in two parts; the end of a run. -/

namespace Sys2Proof.Machine

/-- What it is to be ended, part by part (R237; log 16). -/
theorem ended_iff {s : State} : s.ended = true ↔ s.stream = [] ∧ s.bidx = 256#9 ∧ s.rspq = [] := by
  have h : s.bidx.toNat = 256 ↔ s.bidx = 256#9 := (BitVec.toNat_inj (y := 256#9))
  simp [State.ended, State.tablesReady, and_assoc, h]

/-- The turns to come, present turns among them, do not count (log 16). -/
@[simp] theorem ended_following (s : State) (ts : List Turn) : (s.following ts).ended = s.ended := rfl

@[simp] theorem run_zero (s : State) : run 0 s = .next s := rfl

theorem run_succ {k : Nat} {s t : State} (h : step s = .next t) : run (k + 1) s = run k t := by
  have h' : Sys2Proof.core.step s = .next t := h
  simp only [run, Host.Core.run, h']
  rfl

/-- A run that goes on for k + 1 steps went on in its first. -/
theorem run_succ_next {k : Nat} {s t : State} (h : run (k + 1) s = .next t) :
    ∃ u, step s = .next u ∧ run k u = .next t := by
  cases hs : step s with
  | next u => exact ⟨u, rfl, (run_succ hs).symm.trans h⟩
  | fault r =>
    have h' : Sys2Proof.core.step s = .fault r := hs
    simp only [run, Host.Core.run, h'] at h
    cases h
  | refused r =>
    have h' : Sys2Proof.core.step s = .refused r := hs
    simp only [run, Host.Core.run, h'] at h
    cases h

/-- A run in two parts. -/
theorem run_add (a b : Nat) : ∀ {s t : State}, run a s = .next t → run (a + b) s = run b t := by
  induction a with
  | zero =>
    intro s t h
    injection h with h
    subst h
    simp
  | succ a ih =>
    intro s t h
    obtain ⟨u, h1, h2⟩ := run_succ_next h
    rw [show a + 1 + b = a + b + 1 by omega, run_succ h1]
    exact ih h2

end Sys2Proof.Machine
end

