-- ==== Sys2Proof/Tests/Slice0.lean ====
section
/-! SUPPORT. Tests of the model against the spec's own examples and vectors (the rules' Example lines and
95_test_vectors.md; words written out from rule R70's diagram), the smoke tests of WellFormed, and a witness for the
hypotheses of each statement of the provers. -/

namespace Sys2Proof.Tests

open Sys2Proof Sys2Proof.Machine

/-! ## Helpers -/

/-- The state after reset with a capacity of four words (95_test_vectors.md section 3). -/
def start : State := { State.reset with rspDepth := 4 }

/-- `start` with the index past the build and one entry in each table: enough for one step. -/
def oneEntry (i : Byte) (v8 : Byte) (v16 : Word) : State :=
  { start with bidx := 256#9, t8 := writeEntry start.t8 i v8, t16 := writeEntry start.t16 i v16 }

/-- `start` after the whole build. -/
def ready : State :=
  { start with
    bidx := 256#9
    t8 := Vector.ofFn fun k => some (entry8 (BitVec.ofNat 8 k.val))
    t16 := Vector.ofFn fun k => some (entry16 (BitVec.ofNat 8 k.val)) }

/-- The queue full: four words in it. -/
def full (s : State) : State := { s with rspq := [1#16, 2#16, 3#16, 4#16] }

/-- The state a step went on to, or `start` if it did not. -/
def after : Result → State
  | .next s => s
  | .fault _ => start
  | .refused _ => start

/-- The step went on. -/
def goesOn : Result → Bool
  | .next _ => true
  | .fault _ => false
  | .refused _ => false

theorem next_after {r : Result} (h : goesOn r = true) : r = .next (after r) := by
  cases r <;> first | rfl | cases h

theorem start_inv : start.Inv where
  bidx_le := by decide
  t8_built := fun i => entry_replicate_none i
  t16_built := fun i => entry_replicate_none i
  depth_pos := by decide
  queue_le := by decide
  errcmd_clear := fun _ => rfl
  errcmd_illegal := fun h => nomatch h

theorem ready_inv : ready.Inv where
  bidx_le := by decide
  t8_built := fun i => by simp [ready, entry, i.isLt]
  t16_built := fun i => by simp [ready, entry, i.isLt]
  depth_pos := by decide
  queue_le := by decide
  errcmd_clear := fun _ => rfl
  errcmd_illegal := fun h => nomatch h

theorem full_ready_inv : (full ready).Inv :=
  ready_inv.congr rfl rfl rfl rfl (by decide) rfl rfl

/-! ## WellFormed: the one check refuses an ill-formed term -/

theorem test_wellFormed_rreg_highest : (Instr.rreg 0x08#8).wellFormed = true := by decide
theorem test_wellFormed_refuses_reserved_register : (Instr.rreg 0x09#8).wellFormed = false := by decide
theorem test_wellFormed_refuses_register_ff : (Instr.rreg 0xFF#8).wellFormed = false := by decide

/-! ## Decoding: words written out bit by bit, `op eng rsv imm8` (R70, R71, R72) -/

theorem test_decode_nop : decode 0b0000000000000000#16 = .ok .nop := by decide
theorem test_decode_initC8 : decode 0b0001000000000000#16 = .ok .initC8 := by decide
theorem test_decode_initC16 : decode 0b0001010000000000#16 = .ok .initC16 := by decide
theorem test_decode_initX8 : decode 0b0001100000000000#16 = .ok .initX8 := by decide
theorem test_decode_feedC8 : decode 0b0010000001110101#16 = .ok (.feedC8 0x75#8) := by decide
theorem test_decode_feedC16 : decode 0b0010010001000001#16 = .ok (.feedC16 0x41#8) := by decide
theorem test_decode_feedX8 : decode 0b0010100010101010#16 = .ok (.feedX8 0xAA#8) := by decide
theorem test_decode_readC8 : decode 0b0011000000000000#16 = .ok .readC8 := by decide
theorem test_decode_readC16 : decode 0b0011010000000000#16 = .ok .readC16 := by decide
theorem test_decode_readX8 : decode 0b0011100000000000#16 = .ok .readX8 := by decide
theorem test_decode_treadC8 : decode 0b0100000010111100#16 = .ok (.treadC8 0xBC#8) := by decide
theorem test_decode_treadC16 : decode 0b0100010010000000#16 = .ok (.treadC16 0x80#8) := by decide
theorem test_decode_rreg : decode 0b0101000000001000#16 = .ok (.rreg 0x08#8) := by decide

/-- 95_test_vectors.md 2.8: the illegal words of its table. -/
theorem test_decode_illegal_words :
    [0x0001#16, 0x0100#16, 0x0300#16, 0x1001#16, 0x1C00#16, 0x2300#16, 0x2CFF#16, 0x3801#16, 0x4800#16, 0x4C00#16,
      0x5009#16, 0x5400#16, 0x6000#16, 0xFFFF#16].all (fun c => (decode? c).isNone) = true := by decide

theorem test_decodeTableWord : decodeTableWord 16 0x24FE = some (.feedC16 0xFE#8) := by decide

/-! ## Table builder: 95_test_vectors.md 2.1 and 2.2 -/

theorem test_entry8_row_0 :
    (List.range 16).map (fun k => entry8 (BitVec.ofNat 8 k)) =
      [0x00#8, 0x07#8, 0x0E#8, 0x09#8, 0x1C#8, 0x1B#8, 0x12#8, 0x15#8, 0x38#8, 0x3F#8, 0x36#8, 0x31#8, 0x24#8, 0x23#8,
        0x2A#8, 0x2D#8] := by decide
theorem test_entry8_row_f :
    (List.range 16).map (fun k => entry8 (BitVec.ofNat 8 (240 + k))) =
      [0xDE#8, 0xD9#8, 0xD0#8, 0xD7#8, 0xC2#8, 0xC5#8, 0xCC#8, 0xCB#8, 0xE6#8, 0xE1#8, 0xE8#8, 0xEF#8, 0xFA#8, 0xFD#8,
        0xF4#8, 0xF3#8] := by decide
theorem test_entry16_row_0 :
    (List.range 16).map (fun k => entry16 (BitVec.ofNat 8 k)) =
      [0x0000#16, 0xC0C1#16, 0xC181#16, 0x0140#16, 0xC301#16, 0x03C0#16, 0x0280#16, 0xC241#16, 0xC601#16, 0x06C0#16,
        0x0780#16, 0xC741#16, 0x0500#16, 0xC5C1#16, 0xC481#16, 0x0440#16] := by decide
theorem test_entry16_row_8 :
    (List.range 16).map (fun k => entry16 (BitVec.ofNat 8 (128 + k))) =
      [0xA001#16, 0x60C0#16, 0x6180#16, 0xA141#16, 0x6300#16, 0xA3C1#16, 0xA281#16, 0x6240#16, 0x6600#16, 0xA6C1#16,
        0xA781#16, 0x6740#16, 0xA501#16, 0x65C0#16, 0x6480#16, 0xA441#16] := by decide

/-- 95_test_vectors.md 2.2: after one builder step `bidx = 1`, entry 0 is written and entry 1 is not. -/
theorem test_builder_first_step :
    let s := after (takeTurn .builder start)
    s.bidx = 1#9 ∧ entry s.t8 0#8 = some 0x00#8 ∧ entry s.t16 0#8 = some 0x0000#16 ∧ entry s.t8 1#8 = none := by
  decide

/-- The last builder step writes entry 255 and makes TBL_READY 1 (R36). -/
theorem test_builder_last_step :
    let s := after (takeTurn .builder { start with bidx := 255#9 })
    s.bidx = 256#9 ∧ entry s.t16 0xFF#8 = some 0x4040#16 ∧ s.status = 0x0001#16 := by decide

/-! ## One step of each instruction -/

/-- R182's example. -/
theorem test_nop : exec .nop { start with stream := [0x0000#16, 0x1000#16] } =
    .next { start with stream := [0x1000#16] } := rfl

/-- R121's example. -/
theorem test_initC8 : (after (exec .initC8 { start with acc8 := 0xBC#8 })).acc8 = 0x00#8 := by decide
/-- R141's example. -/
theorem test_initC16 : (after (exec .initC16 { start with acc16 := 0xBB2A#16 })).acc16 = 0xFFFF#16 := by decide
/-- R161's example. -/
theorem test_initX8 : (after (exec .initX8 { start with accx := 0xFE#8 })).accx = 0xFF#8 := by decide

/-- 95_test_vectors.md 2.3: acc8 0x12, b 0x34 gives T8[0x26] = 0xF2. -/
theorem test_feedC8 :
    (after (exec (.feedC8 0x34#8) { oneEntry 0x26#8 0xF2#8 0#16 with acc8 := 0x12#8 })).acc8 = 0xF2#8 := by decide
/-- P1, row 1: FEED.C8 before the tables are built holds. -/
theorem test_feedC8_holds : exec (.feedC8 0x01#8) { start with stream := [0x2001#16] } =
    .next { start with stream := [0x2001#16] } := rfl
/-- R142's example: idx 0xFE, T16[0xFE] = 0x8081, acc16 = 0x807E. -/
theorem test_feedC16 :
    (after (exec (.feedC16 0x01#8) (oneEntry 0xFE#8 0x00#8 0x8081#16))).acc16 = 0x807E#16 := by decide
/-- 95_test_vectors.md 2.4: acc16 0x1234, b 0x34 gives index 0 and 0x0012. -/
theorem test_feedC16_index_0 :
    (after (exec (.feedC16 0x34#8) { oneEntry 0x00#8 0x00#8 0x0000#16 with acc16 := 0x1234#16 })).acc16 = 0x0012#16 := by
  decide
/-- P4, row 2: FEED.X8 does not hold during the build. -/
theorem test_feedX8 : (after (exec (.feedX8 0xAA#8) start)).accx = 0x55#8 := by decide

/-- R123's example. -/
theorem test_readC8 : (after (exec .readC8 { start with acc8 := 0xBC#8 })).rspq = [0x00BC#16] := by decide
/-- R143's example. -/
theorem test_readC16 :
    (after (exec .readC16 { start with acc16 := 0xBB2A#16, rspq := [0x0001#16] })).rspq = [0x0001#16, 0xBB2A#16] := by
  decide
/-- R163's example. -/
theorem test_readX8 : (after (exec .readX8 { start with accx := 0xFE#8 })).rspq = [0x00FE#16] := by decide
/-- P4, row 7: READ.X8 holds on a full queue. -/
theorem test_readX8_holds : exec .readX8 { start with rspq := [0xA001#16], rspDepth := 1 } =
    .next { start with rspq := [0xA001#16], rspDepth := 1 } := rfl

/-- R106's example. -/
theorem test_treadC8 : (after (exec (.treadC8 0x80#8) (oneEntry 0x80#8 0x89#8 0#16))).rspq = [0x0089#16] := by decide
/-- R107's example. -/
theorem test_treadC16 : (after (exec (.treadC16 0x01#8) (oneEntry 0x01#8 0#8 0xC0C1#16))).rspq = [0xC0C1#16] := by
  decide
/-- R25: a read of an entry that holds no value is a fault. -/
theorem test_treadC16_unwritten :
    exec (.treadC16 0x02#8) (oneEntry 0x01#8 0#8 0xC0C1#16) = .fault (.unwrittenEntry .c16 0x02#8) := rfl

/-- 95_test_vectors.md 2.9: every register with the tables built and no illegal command. -/
theorem test_rreg :
    (List.range 9).map (fun n => (after (exec (.rreg (BitVec.ofNat 8 n)) { start with bidx := 256#9 })).rspq) =
      [[0x0001#16], [0x0100#16], [0x0007#16], [0xA001#16], [0x0000#16], [0xFFFF#16], [0x00FF#16], [0x2208#16],
        [0x0000#16]] := by decide
/-- P3, rows 13 and 14: STATUS and ERRCMD after an illegal word. -/
theorem test_rreg_after_illegal :
    let s : State := { start with bidx := 256#9, err := true, errcmd := 0x6000#16 }
    (after (exec (.rreg 0x00#8) s)).rspq = [0x0003#16] ∧ (after (exec (.rreg 0x08#8) s)).rspq = [0x6000#16] := by decide

/-! ## Steps of the agents -/

/-- P3, rows 7 and 10: the first illegal word is recorded, the second is not; both leave the stream. -/
theorem test_illegal_word_is_recorded_once :
    run 2 { start with stream := [0x6000#16, 0x1C00#16], schedule := [.command, .command] } =
      .next { start with err := true, errcmd := 0x6000#16 } := rfl

/-- P4, row 5: the host drains and receives 0x0000. -/
theorem test_drain : takeTurn .drain { start with rspq := [0x0000#16, 0xA001#16] } =
    .next { start with rspq := [0xA001#16], received := [0x0000#16] } := rfl

/-- P6: the response queued before reset is lost, and the accumulators are at their seeds. -/
theorem test_reset :
    let s := after (takeTurn .reset { oneEntry 0#8 0#8 0#16 with acc8 := 0x07#8, rspq := [0x0007#16] })
    s.rspq = [] ∧ s.acc8 = 0x00#8 ∧ s.bidx = 0#9 ∧ entry s.t8 0#8 = none ∧ s.received = [] := by decide

/-- A word placed at reset is what the next step runs (log 7), with the open capacity as it stands. -/
theorem test_withFetchWord_runs_at_reset :
    (after (step (State.reset.withFetchWord 16 0x2801))).accx = 0xFE#8 ∧
    (after (step (State.reset.withFetchWord 16 0x3400))).rspq = [0xFFFF#16] := by decide

/-! ## Checksums and assembler text -/

/-- 95_test_vectors.md S1, S3, S4 and section 2.6: the checksums of 1,2,3,4,5 and the empty ones. -/
theorem test_checksums :
    crc8 [1#8, 2#8, 3#8, 4#8, 5#8] = 0xBC#8 ∧ crc16 [1#8, 2#8, 3#8, 4#8, 5#8] = 0xBB2A#16 ∧
    xor8 [1#8, 2#8, 3#8, 4#8, 5#8] = 0xFE#8 ∧ crc8 [] = 0x00#8 ∧ crc16 [] = 0xFFFF#16 ∧ xor8 [] = 0xFF#8 := by
  decide +kernel

/-- 95_test_vectors.md S2. -/
theorem test_crc8_of_twelve_bytes :
    crc8 [0x75#8, 0x37#8, 0x53#8, 0x46#8, 0x4A#8, 0x35#8, 0x47#8, 0x16#8, 0x56#8, 0x54#8, 0x38#8, 0x42#8] = 0x80#8 := by
  decide +kernel

/-- R80's examples. -/
theorem test_assemble_examples :
    assembleLine "FEED.C16 0x41".toList = .ok [0x2441#16] ∧ assembleLine "TREAD.C8 255 ; last".toList = .ok [0x40FF#16] ∧
    assembleLine "RREG STATUS".toList = .ok [0x5000#16] ∧ assembleLine ".word 0xF000".toList = .ok [0xF000#16] := by
  decide +kernel

/-- R203: 256 is refused, not truncated; and P2's pseudo-instruction. -/
theorem test_assemble_refuses_and_expands :
    assembleLine "FEED.C8 256".toList = .error .operandOutOfRange ∧
    assembleLine "RREG 9".toList = .error .reservedRegister ∧
    assemble "CRC16 1, 2\nREAD.X8".toList = .ok [0x1400#16, 0x2401#16, 0x2402#16, 0x3400#16, 0x3800#16] := by
  decide +kernel

/-! ## Witnesses: a concrete state and operands that meet the hypotheses of each statement -/

/-- `start` or `ready` with a stream and a schedule, which the invariant does not look at. -/
def withInput (s : State) (stream : List Word) (schedule : List Turn) : State :=
  { s with stream := stream, schedule := schedule }

theorem start_withInput_inv (cs : List Word) (ts : List Turn) : (withInput start cs ts).Inv :=
  start_inv.congr rfl rfl rfl rfl (Nat.zero_le _) rfl rfl

theorem ready_withInput_inv (cs : List Word) (ts : List Turn) : (withInput ready cs ts).Inv :=
  ready_inv.congr rfl rfl rfl rfl (Nat.zero_le _) rfl rfl

theorem witness_HostsSideIsKeptByEveryStep :
    let s := withInput start [] [.reset]
    step s = .next (after (step s)) ∧ nextTurn s ≠ .drain := ⟨rfl, by decide⟩
theorem witness_ResetRebuildsTheSameTables :
    ready.Inv ∧ entry ready.t8 0xFF#8 = some 0xF3#8 ∧ entry ready.t16 0xFF#8 = some 0x4040#16 ∧ start.Inv :=
  ⟨ready_inv, by decide +kernel, by decide +kernel, start_inv⟩
theorem witness_DecodeOfEncodeIsTheInstruction :
    (Instr.rreg 0x08#8).wellFormed = true ∧ (Instr.feedC16 0xFF#8).wellFormed = true := by decide
theorem witness_EncodeOfDecodeIsTheWord : decode 0x5008#16 = .ok (.rreg 0x08#8) := by decide
theorem witness_ReservedBitsAreIllegal :
    (0x0100#16).getLsbD 8 = true ∧ (0x0200#16).getLsbD 9 = true := by decide
theorem witness_IllegalCombinationsAreRefused :
    (0b00#2 ++ 0b00#2 ++ 0x01#8 ≠ 0#12) ∧ (0x01#8 ≠ 0x00#8) ∧ (0b01#2 ≠ 0b00#2) ∧ 9 ≤ (0x09#8).toNat := by decide
theorem witness_ReservedOpcodesAreIllegal : 0x6000 ≤ (0x6000#16).toNat ∧ decode? 0x0000#16 = some .nop := by decide
theorem witness_CommandTurnRunsTheDecodedInstruction :
    (withInput start [0x1400#16, 0x3400#16] []).stream = 0x1400#16 :: [0x3400#16] ∧ decode 0x1400#16 = .ok .initC16 := by
  decide
theorem witness_EmptyScheduleServesBuilderThenCommands :
    start.schedule = [] ∧ ({ start with bidx := 255#9 } : State).bidx.toNat < 256 ∧
    (let s := { withInput start [0x3800#16] [] with bidx := 256#9 }
     s.schedule = [] ∧ 256 ≤ s.bidx.toNat ∧ s.stream = 0x3800#16 :: []) ∧ decode 0x3800#16 = .ok .readX8 := by decide
theorem witness_PlacedWordIsRunNext : decodeTableWord 16 0x44FF = some (.treadC16 0xFF#8) := by decide
theorem witness_IllegalWordIsRecordedAndDropped :
    (withInput start [0x5009#16] []).stream = 0x5009#16 :: [] ∧ decode? 0x5009#16 = none := by decide
theorem witness_DrainTakesTheHead : (full start).rspq = 1#16 :: [2#16, 3#16, 4#16] := by decide
theorem witness_TurnsWithoutAStepChangeNothing :
    ready.stream = [] ∧ 256 ≤ ready.bidx.toNat ∧ ready.rspq = [] ∧ ready.schedule = [] := ⟨rfl, by decide, rfl, rfl⟩
theorem witness_FeedC8TakesTheTableEntry :
    ({ start with bidx := 255#9 } : State).bidx.toNat < 256 ∧
    (let s := oneEntry 0x01#8 0x07#8 0#16
     256 ≤ s.bidx.toNat ∧ entry s.t8 (s.acc8 ^^^ 0x01#8) = some 0x07#8) := by decide
theorem witness_FeedC8IsEightDivisionSteps : ready.Inv ∧ ready.bidx = 256#9 ∧ ready.acc8 = 0x00#8 :=
  ⟨ready_inv, rfl, rfl⟩
theorem witness_FeedC16ShiftsAndXorsTheEntry :
    ({ start with bidx := 255#9 } : State).bidx.toNat < 256 ∧
    (let s := oneEntry 0xFE#8 0#8 0x8081#16
     256 ≤ s.bidx.toNat ∧ entry s.t16 (s.acc16.setWidth 8 ^^^ 0x01#8) = some 0x8081#16) := by decide
theorem witness_FeedC16IsEightReflectedDivisionSteps :
    ready.Inv ∧ ready.bidx = 256#9 ∧ ready.acc16.setWidth 8 = 0xFF#8 := ⟨ready_inv, rfl, by decide⟩
theorem witness_ReadDeliversTheAccumulator :
    (full start).rspq.length = (full start).rspDepth ∧ start.rspq.length ≠ start.rspDepth := by decide
theorem witness_TreadAnswersTheEntry :
    start.bidx.toNat < 256 ∧ (full start).rspq.length = (full start).rspDepth ∧
    (let s := oneEntry 0x80#8 0x89#8 0xA001#16
     256 ≤ s.bidx.toNat ∧ s.rspq.length ≠ s.rspDepth ∧ entry s.t8 0x80#8 = some 0x89#8 ∧
       entry s.t16 0x80#8 = some 0xA001#16) := by decide
theorem witness_RregAnswersTheRegister :
    (List.range 9).all (fun n => decide ((BitVec.ofNat 8 n).toNat ≤ 8)) = true ∧
    (full start).rspq.length = (full start).rspDepth ∧ start.rspq.length ≠ start.rspDepth := by decide
theorem witness_RregOfReservedNumberIsIllegal : 9 ≤ (0x09#8).toNat ∧ 9 ≤ (0xFF#8).toNat := by decide
theorem witness_CommandsHoldExactlyOnTheTwoHazards :
    (withInput start [0x2001#16] []).Inv ∧ (Instr.feedC8 0x01#8).wellFormed = true ∧
    (withInput start [0x2001#16] []).stream ≠ [] ∧ readsTable (.feedC8 0x01#8) = true ∧ start.bidx.toNat < 256 ∧
    (full ready).Inv ∧ responds .readC8 = true ∧ (full ready).rspq.length = (full ready).rspDepth :=
  ⟨start_withInput_inv _ _, by decide, by decide, by decide, by decide, full_ready_inv, by decide, by decide⟩
theorem witness_ReadingAnUnwrittenEntryFaults :
    let s := oneEntry 0x01#8 0x07#8 0xC0C1#16
    256 ≤ s.bidx.toNat ∧ s.rspq.length ≠ s.rspDepth ∧ entry s.t8 (s.acc8 ^^^ 0x02#8) = none ∧
      entry s.t16 (s.acc16.setWidth 8 ^^^ 0x02#8) = none ∧ entry s.t8 0x02#8 = none ∧ entry s.t16 0x02#8 = none := by
  decide
theorem witness_EveryCommandCompletesWhenReady :
    ready.Inv ∧ (Instr.treadC8 0xFF#8).wellFormed = true ∧ ready.bidx = 256#9 ∧ ready.rspq.length < ready.rspDepth :=
  ⟨ready_inv, by decide, rfl, by decide⟩
theorem witness_RespondersOnlyAppendOneWord :
    Instr.readC16.wellFormed = true ∧ exec .readC16 start = .next (after (exec .readC16 start)) ∧
    responds .readC16 = true ∧ exec .initX8 start = .next (after (exec .initX8 start)) ∧ responds .initX8 = false :=
  ⟨rfl, rfl, rfl, rfl, rfl⟩
theorem witness_StatusBitsAreReadyAndErr : 2 ≤ 2 ∧ 2 ≤ 15 := by decide
theorem witness_BuilderStepWritesOneEntryOfEach :
    start.bidx.toNat < 256 ∧ ({ start with bidx := 255#9 } : State).bidx.toNat < 256 ∧ 256 ≤ ready.bidx.toNat :=
  ⟨by decide, by decide, by decide⟩
theorem witness_ReadyTablesAreLinearAndInjective :
    ready.Inv ∧ ready.bidx = 256#9 ∧ entry ready.t8 0x03#8 = entry ready.t8 (0x01#8 ^^^ 0x02#8) :=
  ⟨ready_inv, rfl, rfl⟩
theorem witness_BuilderCompletesIn256Steps : start.bidx = 0#9 := rfl
theorem witness_TablesBecomeReadyInBoundedTime :
    (withInput start [0x2001#16] [.command, .reset, .builder]).Inv := start_withInput_inv _ _
theorem witness_EveryStepIsSafe : start.Inv ∧ ready.Inv ∧ (full ready).Inv := ⟨start_inv, ready_inv, full_ready_inv⟩
theorem witness_TablesAreWrittenOnlyByTheBuilder :
    let s := withInput ready [0x2001#16] [.command]
    s.Inv ∧ step s = .next (after (step s)) ∧ nextTurn s ≠ .reset ∧ nextTurn s ≠ .builder ∧
      entry s.t8 0x01#8 = some 0x07#8 ∧ entry s.t16 0x01#8 = some 0xC0C1#16 :=
  ⟨ready_withInput_inv _ _, next_after (by decide +kernel), by decide, by decide, by decide +kernel, by decide +kernel⟩
theorem witness_AccumulatorsAreWrittenOnlyByTheirEngine :
    let s := withInput start [0x2801#16] [.command]
    step s = .next (after (step s)) ∧ nextTurn s ≠ .reset ∧ (after (step s)).accumulator .x8 ≠ s.accumulator .x8 :=
  ⟨rfl, by decide, by decide⟩
theorem witness_ErrorIsStickyAndHoldsTheFirst :
    let s := withInput start [0x6000#16] [.command]
    let t := { withInput start [0x1C00#16] [.command] with err := true, errcmd := 0x6000#16 }
    let u := withInput start [] [.builder]
    (step s = .next (after (step s)) ∧ nextTurn s ≠ .reset ∧ s.err = false ∧ (after (step s)).err = true) ∧
    (step t = .next (after (step t)) ∧ nextTurn t ≠ .reset ∧ t.err = true) ∧
    (step u = .next (after (step u)) ∧ nextTurn u ≠ .reset ∧ u.err = false ∧ (after (step u)).err = false) :=
  ⟨⟨rfl, by decide, rfl, rfl⟩, ⟨rfl, by decide, rfl⟩, ⟨rfl, by decide, rfl, rfl⟩⟩
theorem witness_StreamAdvancesByAtMostOne :
    let s := withInput start [0x2001#16] [.command]
    let t := withInput start [] [.drain]
    let u := withInput start [] [.builder]
    (step s = .next (after (step s)) ∧ nextTurn s = .command) ∧ (step t = .next (after (step t)) ∧ nextTurn t = .drain) ∧
    (step u = .next (after (step u)) ∧ nextTurn u = .builder) := ⟨⟨rfl, rfl⟩, ⟨rfl, rfl⟩, ⟨rfl, rfl⟩⟩
theorem witness_ResponsesLeaveInTheOrderProduced :
    let s := withInput start [0x3400#16] [.command]
    step s = .next (after (step s)) ∧ nextTurn s ≠ .reset ∧ nextTurn s ≠ .drain := ⟨rfl, by decide, by decide⟩
theorem witness_HeldHeadBlocksTheStream :
    (withInput start [0x20FF#16, 0x1000#16] []).stream = 0x20FF#16 :: [0x1000#16] ∧
    decode 0x20FF#16 = .ok (.feedC8 0xFF#8) ∧ readsTable (.feedC8 0xFF#8) = true ∧ start.bidx.toNat < 256 ∧
    decode 0x3000#16 = .ok .readC8 ∧ responds .readC8 = true ∧ (full start).rspq.length = (full start).rspDepth := by
  decide
theorem witness_DifferentEnginesCommute :
    ready.Inv ∧ writesEngine (.feedC8 0x01#8) = some .c8 ∧ writesEngine (.feedC16 0x01#8) = some .c16 ∧
    Engine.c8 ≠ Engine.c16 := ⟨ready_inv, rfl, rfl, by decide⟩
theorem witness_EngineReadsOnlyItsOwnAccumulator :
    let s := start
    let t := { start with acc8 := 0x5A#8, acc16 := 0x1234#16 }
    writesEngine (.feedX8 0x01#8) = some .x8 ∧ s.accumulator .x8 = t.accumulator .x8 ∧ s.t8 = t.t8 ∧ s.t16 = t.t16 ∧
    s.bidx = t.bidx ∧ exec (.feedX8 0x01#8) s = .next (after (exec (.feedX8 0x01#8) s)) ∧
    exec (.feedX8 0x01#8) t = .next (after (exec (.feedX8 0x01#8) t)) := ⟨rfl, rfl, rfl, rfl, rfl, rfl, rfl⟩
theorem witness_OutlookIsKeptByEveryQuietStep :
    let s := withInput start [0x2801#16, 0x5008#16, 0x5009#16] [.command]
    s.Inv ∧ (∀ c ∈ s.stream, fixedAnswer c = true) ∧ (nextTurn s).quiet = true ∧ step s = .next (after (step s)) :=
  ⟨start_withInput_inv _ _, List.all_eq_true.1 (by decide), rfl, next_after (by decide +kernel)⟩
theorem witness_InterleavingsAgreeOnEveryResponse :
    let s := withInput start [0x2801#16, 0x3800#16] []
    let ts : List Turn := [.command, .command, .drain]
    let us : List Turn := [.builder, .command, .builder, .command]
    let t := after (run ts.length (s.following ts))
    let u := after (run us.length (s.following us))
    s.Inv ∧ (∀ c ∈ s.stream, fixedAnswer c = true) ∧ (∀ x ∈ ts, x.quiet = true) ∧ (∀ x ∈ us, x.quiet = true) ∧
    run ts.length (s.following ts) = .next t ∧ run us.length (s.following us) = .next u ∧ t.stream = [] ∧ u.stream = [] :=
  ⟨start_withInput_inv _ _, List.all_eq_true.1 (by decide), by decide, by decide, next_after (by decide +kernel),
    next_after (by decide +kernel), by decide +kernel, by decide +kernel⟩
theorem witness_PresentedStreamIsUsedUp :
    let s := withInput start [0x2001#16, 0x3000#16, 0x3400#16, 0x3800#16, 0x5002#16] []
    s.Inv ∧ s.schedule = [] ∧ (∀ c ∈ s.stream, fixedAnswer c = true) ∧
    s.rspq.length + s.stream.countP wordResponds ≤ s.rspDepth :=
  ⟨start_withInput_inv _ _, rfl, List.all_eq_true.1 (by decide), by decide⟩
theorem witness_Crc8OfAnyByteSequence :
    let s := withInput ready [0x1000#16, 0x20FF#16, 0x3000#16, 0x0000#16] []
    s.Inv ∧ s.bidx = 256#9 ∧ s.rspq.length < s.rspDepth ∧
    s.stream = (crc8Program [0xFF#8]).map encode ++ [0x0000#16] := ⟨ready_withInput_inv _ _, rfl, by decide, by decide⟩
theorem witness_Crc16OfAnyByteSequence :
    let s := withInput ready [0x1400#16, 0x24FF#16, 0x3400#16, 0x0000#16] []
    s.Inv ∧ s.bidx = 256#9 ∧ s.rspq.length < s.rspDepth ∧
    s.stream = (crc16Program [0xFF#8]).map encode ++ [0x0000#16] := ⟨ready_withInput_inv _ _, rfl, by decide, by decide⟩
theorem witness_XorOfAnyByteSequence :
    let s := withInput start [0x1800#16, 0x3800#16] []
    s.rspq.length ≠ s.rspDepth ∧ s.stream = (xsumProgram []).map encode ++ [] := by decide
theorem witness_AssemblerRefusesAnOperandOverAByte :
    number (trimmed " 256 ".toList) = some 256 ∧ number (trimmed "0xFF".toList) = some 255 := by decide +kernel
theorem witness_OnlyDotWordWritesIllegalWords :
    ("RREG".toList, AsmForm.register) ∈ mnemonics ∧ AsmForm.register ≠ AsmForm.word ∧
    assembleForm .register " ERRCMD".toList = .ok [0x5008#16] := by decide +kernel
theorem witness_PseudoInstructionsExpand :
    byteList " 1, 0xFF".toList = .ok [0x01#8, 0xFF#8] ∧ byteList "".toList = .ok [] := by decide +kernel

end Sys2Proof.Tests
end

/-! PROOFS. The encoder's fields and the round trip of a well-formed instruction (R70, R78). -/

namespace Sys2Proof

@[simp] theorem opField_encodeFields (op : BitVec 4) (eng : BitVec 2) (imm : Byte) :
    opField (encodeFields op eng imm) = op :=
  (BitVec.extractLsb'_append_eq_of_le (by decide)).trans <|
    (BitVec.extractLsb'_append_eq_of_le (by decide)).trans BitVec.extractLsb'_append_eq_left

@[simp] theorem engField_encodeFields (op : BitVec 4) (eng : BitVec 2) (imm : Byte) :
    engField (encodeFields op eng imm) = eng :=
  (BitVec.extractLsb'_append_eq_of_le (by decide)).trans <|
    (BitVec.extractLsb'_append_eq_of_le (by decide)).trans BitVec.extractLsb'_append_eq_right

@[simp] theorem rsvField_encodeFields (op : BitVec 4) (eng : BitVec 2) (imm : Byte) :
    rsvField (encodeFields op eng imm) = 0b00#2 :=
  (BitVec.extractLsb'_append_eq_of_le (by decide)).trans BitVec.extractLsb'_append_eq_right

@[simp] theorem immField_encodeFields (op : BitVec 4) (eng : BitVec 2) (imm : Byte) :
    immField (encodeFields op eng imm) = imm :=
  BitVec.extractLsb'_append_eq_right

@[simp] theorem engineOf_c8 : engineOf 0b00#2 = some .c8 := rfl
@[simp] theorem engineOf_c16 : engineOf 0b01#2 = some .c16 := rfl
@[simp] theorem engineOf_x8 : engineOf 0b10#2 = some .x8 := rfl

/-- Decoding takes the encoder's word apart by R78, branch by branch. -/
theorem decode_encode {i : Instr} (h : i.wellFormed = true) : decode (encode i) = .ok i := by
  cases i with
  | nop => decide
  | initC8 | initC16 | initX8 => simp [encode, decode, decodePlain, initOf]
  | feedC8 b | feedC16 b | feedX8 b => simp [encode, decode, decodeFeed, feedOf]
  | readC8 | readC16 | readX8 => simp [encode, decode, decodePlain, readOf]
  | treadC8 k | treadC16 k => simp [encode, decode, decodeTread]
  | rreg n =>
    have hn : legalRegister n = true := h
    simp [encode, decode, decodeRreg, hn]

end Sys2Proof

/-! PROOFS. Commands that are performed without a hold, and programs of them in a row of command turns. -/

namespace Sys2Proof.Machine

/-! ## What exec answers when nothing holds the command -/

theorem exec_feedC8_of_entry {s : State} {b v : Byte} (ready : 256 ≤ s.bidx.toNat)
    (read : entry s.t8 (s.index8 b) = some v) :
    exec (.feedC8 b) s = .next (advance { s with acc8 := v }) := by
  change execFeedC8 b s = _
  rw [execFeedC8, whenTablesReady_of_done ready, withEntry_of_some read, complete]

theorem exec_feedC16_of_entry {s : State} {b : Byte} {v : Word} (ready : 256 ≤ s.bidx.toNat)
    (read : entry s.t16 (s.index16 b) = some v) :
    exec (.feedC16 b) s = .next (advance { s with acc16 := (s.acc16 >>> 8) ^^^ v }) := by
  change execFeedC16 b s = _
  rw [execFeedC16, whenTablesReady_of_done ready, withEntry_of_some read, complete]

/-! ## A command performed, whatever follows it -/

/-- s with the commands cs presented and the turns ts to come. -/
def State.awaiting (s : State) (cs : List Word) (ts : List Turn) : State := { s with stream := cs, schedule := ts }

theorem following_eq_awaiting (s : State) (ts : List Turn) : s.following ts = s.awaiting s.stream ts := rfl

theorem step_awaiting_command (s : State) (c : Word) (cs : List Word) (ts : List Turn) :
    step (s.awaiting (c :: cs) (.command :: ts)) = commandStep c (s.awaiting (c :: cs) ts) := rfl

/-- The well-formed command i is performed in s, is not held, and leaves t, whatever comes after it in the stream and in
the schedule. -/
structure Performs (i : Instr) (s t : State) : Prop where
  wellFormed : i.wellFormed = true
  exec_next : ∀ (c : Word) (cs : List Word) (ts : List Turn),
    exec i (s.awaiting (c :: cs) ts) = .next (t.awaiting cs ts)

theorem Performs.step_next {i : Instr} {s t : State} (h : Performs i s t) (cs : List Word) (ts : List Turn) :
    step (s.awaiting (encode i :: cs) (.command :: ts)) = .next (t.awaiting cs ts) := by
  rw [step_awaiting_command, commandStep_ok (decode_encode h.wellFormed), h.exec_next]

theorem performs_initC8 (s : State) : Performs .initC8 s { s with acc8 := Config.seed8 } :=
  ⟨rfl, fun _ _ _ => rfl⟩

theorem performs_initC16 (s : State) : Performs .initC16 s { s with acc16 := Config.seed16 } :=
  ⟨rfl, fun _ _ _ => rfl⟩

theorem performs_initX8 (s : State) : Performs .initX8 s { s with accx := Config.seedX } :=
  ⟨rfl, fun _ _ _ => rfl⟩

/-- On finished tables FEED.C8 is the fold's step. -/
theorem State.Inv.performs_feedC8 {s : State} (h : s.Inv) (ready : 256 ≤ s.bidx.toNat) (acc b : Byte) :
    Performs (.feedC8 b) { s with acc8 := acc } { s with acc8 := foldStep8 acc b } :=
  ⟨rfl, fun _ _ _ => exec_feedC8_of_entry ready (h.entry8_of_done ready (acc ^^^ b))⟩

/-- On finished tables FEED.C16 is the fold's step. -/
theorem State.Inv.performs_feedC16 {s : State} (h : s.Inv) (ready : 256 ≤ s.bidx.toNat) (acc : Word) (b : Byte) :
    Performs (.feedC16 b) { s with acc16 := acc } { s with acc16 := foldStep16 acc b } :=
  ⟨rfl, fun _ _ _ => exec_feedC16_of_entry ready (h.entry16_of_done ready (lowByte acc ^^^ b))⟩

theorem performs_feedX8 (s : State) (acc b : Byte) :
    Performs (.feedX8 b) { s with accx := acc } { s with accx := foldStepX acc b } :=
  ⟨rfl, fun _ _ _ => rfl⟩

theorem performs_readC8 {s : State} (room : s.rspq.length ≠ s.rspDepth) :
    Performs .readC8 s (respond (zext16 s.acc8) s) :=
  ⟨rfl, fun _ _ _ => respondWith_of_room room⟩

theorem performs_readC16 {s : State} (room : s.rspq.length ≠ s.rspDepth) :
    Performs .readC16 s (respond s.acc16 s) :=
  ⟨rfl, fun _ _ _ => respondWith_of_room room⟩

theorem performs_readX8 {s : State} (room : s.rspq.length ≠ s.rspDepth) :
    Performs .readX8 s (respond (zext16 s.accx) s) :=
  ⟨rfl, fun _ _ _ => respondWith_of_room room⟩

/-! ## A program performed -/

/-- The commands are performed one after the other, from s to t. -/
inductive PerformsAll : List Instr → State → State → Prop where
  | nil (s : State) : PerformsAll [] s s
  | cons {i : Instr} {is : List Instr} {s u t : State} (head : Performs i s u) (tail : PerformsAll is u t) :
      PerformsAll (i :: is) s t

theorem PerformsAll.append {is js : List Instr} {s u t : State} (h : PerformsAll is s u) (k : PerformsAll js u t) :
    PerformsAll (is ++ js) s t := by
  induction h with
  | nil => exact k
  | cons head _ ih => exact .cons head (ih k)

/-- A row of FEEDs folds its bytes into the accumulator; `put` is the state as a function of the accumulator. -/
theorem performsAll_feeds {α : Type} {feed : Byte → Instr} {f : α → Byte → α} {put : α → State}
    (hfeed : ∀ (a : α) (b : Byte), Performs (feed b) (put a) (put (f a b))) (bytes : List Byte) (a : α) :
    PerformsAll (bytes.map feed) (put a) (put (fold a f bytes)) := by
  induction bytes generalizing a with
  | nil => exact .nil _
  | cons b bs ih => exact .cons (hfeed a b) (ih (f a b))

/-- A program whose commands are all performed takes one command turn a command. -/
theorem PerformsAll.run_eq {is : List Instr} {s t : State} (h : PerformsAll is s t) (rest : List Word)
    (ts : List Turn) :
    run is.length (s.awaiting (is.map encode ++ rest) (List.replicate is.length .command ++ ts)) =
      .next (t.awaiting rest ts) := by
  induction h with
  | nil => rfl
  | cons head _ ih => exact (run_succ (head.step_next _ _)).trans ih

/-- R180: INIT loads the seed, each FEED is a step of the fold, READ leaves t; then the checksum program at the head of the
stream comes to t in n + 2 command turns. -/
theorem run_checksumProgram {α : Type} {init read : Instr} {feed : Byte → Instr} {seed : α} {f : α → Byte → α}
    {put : α → State} {s t : State} {bytes : List Byte} {rest : List Word}
    (hinit : Performs init s (put seed))
    (hfeed : ∀ (a : α) (b : Byte), Performs (feed b) (put a) (put (f a b)))
    (hread : Performs read (put (fold seed f bytes)) t)
    (hs : s.stream = (init :: (bytes.map feed ++ [read])).map encode ++ rest) (ts : List Turn) :
    run (bytes.length + 2) (s.following (List.replicate (bytes.length + 2) .command ++ ts)) =
      .next (t.awaiting rest ts) := by
  have hprog : PerformsAll (init :: (bytes.map feed ++ [read])) s t :=
    .cons hinit ((performsAll_feeds hfeed bytes seed).append (.cons hread (.nil t)))
  have hlen : (init :: (bytes.map feed ++ [read])).length = bytes.length + 2 := by simp
  rw [following_eq_awaiting, hs, ← hlen]
  exact hprog.run_eq rest ts

/-- Settles O55: on ready tables FEED.C8 is `foldStep8`. -/
theorem crc8OfAnyByteSequence : Obligations.Crc8OfAnyByteSequence := by
  intro s bytes rest ts hinv hb hroom hs
  have ready : 256 ≤ s.bidx.toNat := by simp [hb]
  exact run_checksumProgram (put := fun a => { s with acc8 := a }) (performs_initC8 s)
    (hinv.performs_feedC8 ready) (performs_readC8 (Nat.ne_of_lt hroom)) hs ts

/-- Settles O56: on ready tables FEED.C16 is `foldStep16`. -/
theorem crc16OfAnyByteSequence : Obligations.Crc16OfAnyByteSequence := by
  intro s bytes rest ts hinv hb hroom hs
  have ready : 256 ≤ s.bidx.toNat := by simp [hb]
  exact run_checksumProgram (put := fun a => { s with acc16 := a }) (performs_initC16 s)
    (hinv.performs_feedC16 ready) (performs_readC16 (Nat.ne_of_lt hroom)) hs ts

/-- Settles O57: FEED.X8 is `foldStepX` in every state, for it reads no table. -/
theorem xorOfAnyByteSequence : Obligations.XorOfAnyByteSequence := by
  intro s bytes rest ts hroom hs
  exact run_checksumProgram (put := fun a => { s with accx := a }) (performs_initX8 s)
    (performs_feedX8 s) (performs_readX8 hroom) hs ts

end Sys2Proof.Machine

/-! PROOFS. What an instruction's effect, the builder's turn and a drain leave unchanged, and what a step can change of what
is visible (R21, R34, R56). -/

namespace Sys2Proof.Machine

/-! ## The effect of an instruction -/

@[simp] theorem accumulator_advance (s : State) (e : Engine) : (advance s).accumulator e = s.accumulator e := by
  cases e <;> rfl

@[simp] theorem accumulator_respond (v : Word) (s : State) (e : Engine) :
    (respond v s).accumulator e = s.accumulator e := by
  cases e <;> rfl

@[simp] theorem accumulator_recordIllegal (c : Word) (s : State) (e : Engine) :
    (recordIllegal c s).accumulator e = s.accumulator e := by
  cases e <;> rfl

@[simp] theorem accumulator_following (s : State) (ts : List Turn) (e : Engine) :
    (s.following ts).accumulator e = s.accumulator e := by
  cases e <;> rfl

/-- An engine's accumulator is part of what is visible. -/
theorem accumulator_eq_of_view {s t : State} (h : t.view = s.view) (e : Engine) : t.accumulator e = s.accumulator e := by
  cases e with
  | c8 => exact congrArg (fun v => zext16 v.acc8) h
  | c16 => exact congrArg View.acc16 h
  | x8 => exact congrArg (fun v => zext16 v.accx) h

/-- R21: an effect changes the accumulator of the instruction's own engine at most. -/
theorem Effect.writesEngine_of_ne {s u : State} {i : Instr} {e : Engine} (h : Effect s i u)
    (hne : u.accumulator e ≠ s.accumulator e) : writesEngine i = some e := by
  cases h with
  | initC8 | feedC8 =>
    cases e with
    | c8 => rfl
    | c16 | x8 => exact absurd rfl hne
  | initC16 | feedC16 =>
    cases e with
    | c16 => rfl
    | c8 | x8 => exact absurd rfl hne
  | initX8 | feedX8 =>
    cases e with
    | x8 => rfl
    | c8 | c16 => exact absurd rfl hne
  | nop | readC8 | readC16 | readX8 | treadC8 | treadC16 | rreg | rregReserved => simp at hne

/-- R56: the whole effect of a well-formed responder is one response. -/
theorem Effect.eq_respond {s u : State} {i : Instr} (h : Effect s i u) (hw : i.wellFormed = true)
    (hr : responds i = true) : ∃ v, u = respond v s := by
  cases h with
  | readC8 | readC16 | readX8 | treadC8 | treadC16 | rreg => exact ⟨_, rfl⟩
  | rregReserved n read =>
    obtain ⟨v, hv⟩ := register_of_legal s (of_decide_eq_true hw)
    rw [read] at hv
    cases hv
  | nop | initC8 | initC16 | initX8 | feedC8 | feedC16 | feedX8 => cases hr

theorem Effect.rspq_of_not_responds {s u : State} {i : Instr} (h : Effect s i u) (hr : responds i = false) :
    u.rspq = s.rspq := by
  cases h with
  | nop | initC8 | initC16 | initX8 | feedC8 | feedC16 | feedX8 => rfl
  | readC8 | readC16 | readX8 | treadC8 | treadC16 | rreg | rregReserved => cases hr

/-- An effect appends at most one word to the queue. -/
theorem Effect.rspq_cases {s u : State} {i : Instr} (h : Effect s i u) (hw : i.wellFormed = true) :
    u.rspq = s.rspq ∨ ∃ v, u.rspq = s.rspq ++ [v] := by
  cases hr : responds i with
  | false => exact .inl (h.rspq_of_not_responds hr)
  | true =>
    obtain ⟨v, rfl⟩ := h.eq_respond hw hr
    exact .inr ⟨v, rfl⟩

/-- A well-formed instruction raises no error (R29). -/
theorem Effect.error_frame {s u : State} {i : Instr} (h : Effect s i u) (hw : i.wellFormed = true) :
    u.err = s.err ∧ u.errcmd = s.errcmd := by
  cases hr : responds i with
  | true =>
    obtain ⟨v, rfl⟩ := h.eq_respond hw hr
    exact ⟨rfl, rfl⟩
  | false =>
    cases h with
    | nop | initC8 | initC16 | initX8 | feedC8 | feedC16 | feedX8 => exact ⟨rfl, rfl⟩
    | readC8 | readC16 | readX8 | treadC8 | treadC16 | rreg | rregReserved => cases hr

/-! ## The turns -/

/-- A command turn writes no table, no index and nothing of the host's side but the stream. -/
theorem commandTurn_frame {s t : State} (h : commandTurn s = .next t) :
    t.t8 = s.t8 ∧ t.t16 = s.t16 ∧ t.bidx = s.bidx ∧ t.received = s.received ∧ t.schedule = s.schedule ∧
      t.rspDepth = s.rspDepth := by
  obtain rfl | ⟨c, cs, i, u, -, -, hu, rfl⟩ | ⟨c, cs, -, -, rfl⟩ := commandTurn_next_cases h
  · exact ⟨rfl, rfl, rfl, rfl, rfl, rfl⟩
  · obtain ⟨h8, h16, hb, -, hrec, hsch, hd⟩ := hu.frame
    exact ⟨h8, h16, hb, hrec, hsch, hd⟩
  · exact ⟨rfl, rfl, rfl, rfl, rfl, rfl⟩

/-- R35: a command turn leaves the stream or takes its head off. -/
theorem commandTurn_stream {s t : State} (h : commandTurn s = .next t) :
    t.stream = s.stream ∨ t.stream = s.stream.tail := by
  obtain rfl | ⟨c, cs, i, u, -, -, hu, rfl⟩ | ⟨c, cs, -, -, rfl⟩ := commandTurn_next_cases h
  · exact .inl rfl
  · obtain ⟨-, -, -, hstream, -⟩ := hu.frame
    exact .inr (by rw [advance_stream, hstream])
  · exact .inr rfl

@[simp] theorem builderTurn_stream (s : State) : (builderTurn s).stream = s.stream :=
  (congrArg State.stream (builderTurn_frame s) :)

@[simp] theorem builderTurn_received (s : State) : (builderTurn s).received = s.received :=
  (congrArg State.received (builderTurn_frame s) :)

@[simp] theorem builderTurn_view (s : State) : (builderTurn s).view = s.view :=
  (congrArg State.view (builderTurn_frame s) :)

/-- The builder's turn does not take `bidx` back (R27). -/
theorem bidx_le_builderTurn (s : State) : s.bidx.toNat ≤ (builderTurn s).bidx.toNat := by
  by_cases hb : s.bidx.toNat < 256
  · rw [builderTurn_of_building hb, builderStep_bidx_toNat hb]
    omega
  · rw [builderTurn_of_done (by omega)]

@[simp] theorem hostDrain_t8 (s : State) : (hostDrain s).t8 = s.t8 :=
  (congrArg State.t8 (hostDrain_frame s).1 :)

@[simp] theorem hostDrain_t16 (s : State) : (hostDrain s).t16 = s.t16 :=
  (congrArg State.t16 (hostDrain_frame s).1 :)

@[simp] theorem hostDrain_bidx (s : State) : (hostDrain s).bidx = s.bidx :=
  (congrArg State.bidx (hostDrain_frame s).1 :)

@[simp] theorem hostDrain_stream (s : State) : (hostDrain s).stream = s.stream :=
  (congrArg State.stream (hostDrain_frame s).1 :)

/-- A drained word is visible before and after. -/
@[simp] theorem hostDrain_view (s : State) : (hostDrain s).view = s.view := by
  obtain ⟨hframe, hwords⟩ := hostDrain_frame s
  calc (hostDrain s).view
      = { ({ hostDrain s with rspq := s.rspq, received := s.received } : State).view with
          responses := (hostDrain s).received ++ (hostDrain s).rspq } := rfl
    _ = s.view := by rw [hframe, hwords]; rfl

/-! ## The step -/

/-- Without a reset what is visible changes only on a command turn, by an instruction's effect or an illegal word's. -/
theorem step_view_cases {s t : State} (h : step s = .next t) (hr : nextTurn s ≠ .reset) :
    t.view = s.view ∨
    (nextTurn s = .command ∧ ∃ c cs i u, s.stream = c :: cs ∧ decode c = .ok i ∧
      Effect (s.following s.schedule.tail) i u ∧ t = advance u) ∨
    (nextTurn s = .command ∧ ∃ c cs, s.stream = c :: cs ∧ decode? c = none ∧
      t = advance (recordIllegal c (s.following s.schedule.tail))) := by
  obtain ⟨hn, h⟩ | ⟨-, rfl⟩ | ⟨c, -, rfl⟩ | ⟨-, rfl⟩ | ⟨hn, -⟩ := step_next_cases h
  · rcases commandTurn_next_cases h with rfl | heffect | hillegal
    · exact .inl rfl
    · exact .inr (.inl ⟨hn, heffect⟩)
    · exact .inr (.inr ⟨hn, hillegal⟩)
  · exact .inl (builderTurn_view _)
  · exact .inl rfl
  · exact .inl (hostDrain_view _)
  · exact absurd hn hr

/-- The host's record of what it received changes only on a drain (R236). -/
theorem step_received {s t : State} (h : step s = .next t) (hd : nextTurn s ≠ .drain) : t.received = s.received := by
  obtain ⟨-, h⟩ | ⟨-, rfl⟩ | ⟨c, -, rfl⟩ | ⟨hn, -⟩ | ⟨-, rfl⟩ := step_next_cases h
  · obtain ⟨-, -, -, hrec, -⟩ := commandTurn_frame h
    exact hrec
  · exact builderTurn_received _
  · rfl
  · exact absurd hn hd
  · rfl

/-- R23, R24: only the builder and reset write the tables and `bidx`. -/
theorem step_tables {s t : State} (h : step s = .next t) (hb : nextTurn s ≠ .builder) (hr : nextTurn s ≠ .reset) :
    t.t8 = s.t8 ∧ t.t16 = s.t16 ∧ t.bidx = s.bidx := by
  obtain ⟨-, h⟩ | ⟨hn, -⟩ | ⟨c, -, rfl⟩ | ⟨-, rfl⟩ | ⟨hn, -⟩ := step_next_cases h
  · obtain ⟨h8, h16, hbidx, -⟩ := commandTurn_frame h
    exact ⟨h8, h16, hbidx⟩
  · exact absurd hn hb
  · exact ⟨rfl, rfl, rfl⟩
  · exact ⟨hostDrain_t8 _, hostDrain_t16 _, hostDrain_bidx _⟩
  · exact absurd hn hr

/-- R27: without a reset `bidx` does not get smaller. -/
theorem step_bidx_le {s t : State} (h : step s = .next t) (hr : nextTurn s ≠ .reset) :
    s.bidx.toNat ≤ t.bidx.toNat := by
  by_cases hb : nextTurn s = .builder
  · rw [step_eq, hb] at h
    obtain rfl := Host.Outcome.next.inj h
    exact bidx_le_builderTurn (s.following s.schedule.tail)
  · obtain ⟨-, -, hbidx⟩ := step_tables h hb hr
    rw [hbidx]

end Sys2Proof.Machine

/-! PROOFS. Every step from the invariant goes on and keeps it (R25, R27, R29, R34). -/

namespace Sys2Proof.Machine

/-! ## Updates that keep the invariant -/

theorem inv_advance {s : State} (h : s.Inv) : (advance s).Inv := h.congr rfl rfl rfl rfl h.queue_le rfl rfl

/-- The invariant says nothing of the accumulators. -/
theorem inv_accumulators {s : State} (h : s.Inv) (a8 : Byte) (a16 : Word) (ax : Byte) :
    ({ s with acc8 := a8, acc16 := a16, accx := ax } : State).Inv :=
  h.congr rfl rfl rfl rfl h.queue_le rfl rfl

/-- With room in the queue one more response still fits (R34). -/
theorem inv_respond {s : State} (h : s.Inv) (room : s.rspq.length ≠ s.rspDepth) (v : Word) : (respond v s).Inv := by
  have hq : (respond v s).rspq.length ≤ s.rspDepth := by
    simpa using Nat.lt_of_le_of_ne h.queue_le room
  exact h.congr rfl rfl rfl rfl hq rfl rfl

/-- Recording an illegal word keeps errcmd an illegal word (R29). -/
theorem inv_recordIllegal {s : State} {c : Word} (h : s.Inv) (hc : decode? c = none) : (recordIllegal c s).Inv where
  bidx_le := h.bidx_le
  t8_built := h.t8_built
  t16_built := h.t16_built
  depth_pos := h.depth_pos
  queue_le := h.queue_le
  errcmd_clear := nofun
  errcmd_illegal := fun _ => by
    cases he : s.err with
    | false => simpa [he] using hc
    | true => simpa [he] using h.errcmd_illegal he

theorem inv_hostPresent {s : State} (h : s.Inv) (c : Word) : (hostPresent c s).Inv :=
  h.congr rfl rfl rfl rfl h.queue_le rfl rfl

theorem inv_hostDrain {s : State} (h : s.Inv) : (hostDrain s).Inv := by
  obtain ⟨-, hd⟩ | ⟨v, q, hq, hd⟩ := hostDrain_cases s <;> rw [hd]
  · exact h
  · have hlen : q.length ≤ s.rspDepth := by
      have := h.queue_le
      rw [hq, List.length_cons] at this
      omega
    exact h.congr rfl rfl rfl rfl hlen rfl rfl

/-- A table built up to `bidx` is, after the builder's step, built up to `bidx + 1`. -/
theorem built_builderStep {w : Nat} {s : State} {t : Vector (Option (BitVec w)) 256} {f : Byte → BitVec w}
    (hb : s.bidx.toNat < 256) (built : ∀ i : Byte, entry t i = if i.toNat < s.bidx.toNat then some (f i) else none)
    (i : Byte) :
    entry (writeEntry t s.buildIndex (f s.buildIndex)) i =
      if i.toNat < (builderStep s).bidx.toNat then some (f i) else none := by
  rw [entry_builderStep t f hb, built, builderStep_bidx_toNat hb]
  grind

theorem inv_builderTurn {s : State} (h : s.Inv) : (builderTurn s).Inv := by
  by_cases hb : s.bidx.toNat < 256
  · rw [builderTurn_of_building hb]
    exact {
      bidx_le := by rw [builderStep_bidx_toNat hb]; omega
      t8_built := built_builderStep hb h.t8_built
      t16_built := built_builderStep hb h.t16_built
      depth_pos := h.depth_pos
      queue_le := h.queue_le
      errcmd_clear := h.errcmd_clear
      errcmd_illegal := h.errcmd_illegal }
  · rwa [builderTurn_of_done (by omega)]

/-- Reset puts the block in the invariant, whatever the capacity. -/
theorem inv_hostReset {s : State} (hd : 1 ≤ s.rspDepth) : (hostReset s).Inv where
  bidx_le := Nat.zero_le _
  t8_built := entry_replicate_none
  t16_built := entry_replicate_none
  depth_pos := hd
  queue_le := Nat.zero_le _
  errcmd_clear := fun _ => rfl
  errcmd_illegal := nofun

/-! ## Safe outcomes -/

theorem safe_complete {s : State} (h : s.Inv) : Safe (complete s) := ⟨_, rfl, inv_advance h⟩

theorem safe_whenTablesReady {s : State} {r : Result} (h : s.Inv) (hr : 256 ≤ s.bidx.toNat → Safe r) :
    Safe (whenTablesReady s r) := by
  by_cases hb : s.bidx.toNat < 256
  · exact ⟨s, whenTablesReady_of_building hb r, h⟩
  · rw [whenTablesReady_of_done (by omega)]
    exact hr (by omega)

theorem safe_whenRoom {s : State} {r : Result} (h : s.Inv) (hr : s.rspq.length ≠ s.rspDepth → Safe r) :
    Safe (whenRoom s r) := by
  by_cases hq : s.rspq.length = s.rspDepth
  · exact ⟨s, whenRoom_of_full hq r, h⟩
  · rw [whenRoom_of_room hq]
    exact hr hq

theorem safe_respondWith {s : State} (h : s.Inv) (v : Word) : Safe (respondWith v s) :=
  safe_whenRoom h fun room => safe_complete (inv_respond h room v)

theorem safe_withEntry {w : Nat} {e : Engine} {t : Vector (Option (BitVec w)) 256} {i : Byte} {v : BitVec w}
    {use : BitVec w → Result} (hv : entry t i = some v) (huse : Safe (use v)) : Safe (withEntry e t i use) := by
  rwa [withEntry_of_some hv]

/-- A well-formed command is held, or performed on finished tables and a queue with room. -/
theorem safe_exec {s : State} {i : Instr} (h : s.Inv) (hw : i.wellFormed = true) : Safe (exec i s) := by
  cases i with
  | nop => exact safe_complete h
  | initC8 => exact safe_complete (inv_accumulators h Config.seed8 s.acc16 s.accx)
  | initC16 => exact safe_complete (inv_accumulators h s.acc8 Config.seed16 s.accx)
  | initX8 => exact safe_complete (inv_accumulators h s.acc8 s.acc16 Config.seedX)
  | feedC8 b =>
    exact safe_whenTablesReady h fun ready => safe_withEntry (h.entry8_of_done ready _) <|
      safe_complete (inv_accumulators h _ s.acc16 s.accx)
  | feedC16 b =>
    exact safe_whenTablesReady h fun ready => safe_withEntry (h.entry16_of_done ready _) <|
      safe_complete (inv_accumulators h s.acc8 _ s.accx)
  | feedX8 b => exact safe_complete (inv_accumulators h s.acc8 s.acc16 (s.accx ^^^ b))
  | readC8 => exact safe_respondWith h _
  | readC16 => exact safe_respondWith h _
  | readX8 => exact safe_respondWith h _
  | treadC8 k =>
    exact safe_whenTablesReady h fun ready => safe_whenRoom h fun room =>
      safe_withEntry (h.entry8_of_done ready k) (safe_complete (inv_respond h room _))
  | treadC16 k =>
    exact safe_whenTablesReady h fun ready => safe_whenRoom h fun room =>
      safe_withEntry (h.entry16_of_done ready k) (safe_complete (inv_respond h room _))
  | rreg n =>
    obtain ⟨v, hv⟩ := register_of_legal s (of_decide_eq_true hw)
    change Safe (execRreg n s)
    rw [execRreg, hv]
    exact safe_respondWith h v

theorem safe_commandTurn {s : State} (h : s.Inv) : Safe (commandTurn s) := by
  cases hs : s.stream with
  | nil => exact ⟨s, commandTurn_nil hs, h⟩
  | cons c cs =>
    rw [commandTurn_cons hs]
    cases hd : decode? c with
    | some i =>
      have hok := decode_ok_iff.2 hd
      rw [commandStep_ok hok]
      exact safe_exec h (wellFormed_of_decode hok)
    | none => exact ⟨_, commandStep_illegal hd s, inv_advance (inv_recordIllegal h hd)⟩

theorem safe_takeTurn {s : State} (h : s.Inv) (t : Turn) : Safe (takeTurn t s) := by
  cases t with
  | command => exact safe_commandTurn h
  | builder => exact ⟨_, rfl, inv_builderTurn h⟩
  | present c => exact ⟨_, rfl, inv_hostPresent h c⟩
  | drain => exact ⟨_, rfl, inv_hostDrain h⟩
  | reset => exact ⟨_, rfl, inv_hostReset h.depth_pos⟩

/-- Settles O42: whichever agent moves, its turn from the invariant is safe. -/
theorem everyStepIsSafe : Obligations.EveryStepIsSafe := by
  intro s h
  rw [step_eq]
  exact safe_takeTurn (h.following _) _

theorem State.Inv.of_step {s t : State} (h : s.Inv) (hstep : step s = .next t) : t.Inv := by
  obtain ⟨u, hu, hinv⟩ := everyStepIsSafe s h
  obtain rfl := Host.Outcome.next.inj (hstep.symm.trans hu)
  exact hinv

/-- Of two tables built by the same rule, the one built further holds every value of the other. -/
theorem entry_of_built_le {w m n : Nat} {t u : Vector (Option (BitVec w)) 256} {f : Byte → BitVec w}
    (ht : ∀ i : Byte, entry t i = if i.toNat < m then some (f i) else none)
    (hu : ∀ i : Byte, entry u i = if i.toNat < n then some (f i) else none) (hmn : m ≤ n) (i : Byte) (v : BitVec w)
    (hv : entry t i = some v) : entry u i = some v := by
  rw [ht] at hv
  split at hv
  · next him => rwa [hu, if_pos (by omega)]
  · cases hv

/-- Settles O43: the tables after the step are built at least as far, by the invariant and `step_bidx_le`. -/
theorem tablesAreWrittenOnlyByTheBuilder : Obligations.TablesAreWrittenOnlyByTheBuilder := by
  intro s t h hstep hr
  have ht : t.Inv := h.of_step hstep
  have hle : s.bidx.toNat ≤ t.bidx.toNat := step_bidx_le hstep hr
  exact ⟨fun hb => step_tables hstep hb hr, hle, entry_of_built_le h.t8_built ht.t8_built hle,
    entry_of_built_le h.t16_built ht.t16_built hle⟩

/-- Settles O41: State.reset is what the host's reset leaves, with the parameter as capacity. -/
theorem resetStateIsInTheInvariant : Obligations.ResetStateIsInTheInvariant :=
  inv_hostReset (s := State.reset) (Nat.le_add_left 1 Config.rspDepthExtra)

end Sys2Proof.Machine

/-! PROOFS. The rules over every step on the accumulators, the error state, the stream and the responses, and the small
facts on reset, STATUS, the placed word and an unwritten entry. -/

namespace Sys2Proof.Machine

/-- Settles O35: an effect is one response or leaves the queue. -/
theorem respondersOnlyAppendOneWord : Obligations.RespondersOnlyAppendOneWord := by
  intro s t i hw hexec
  obtain rfl | ⟨u, hu, rfl⟩ := exec_next_cases hexec
  · exact ⟨fun _ => .inl rfl, fun _ => rfl⟩
  · constructor
    · intro hr
      obtain ⟨v, rfl⟩ := hu.eq_respond hw hr
      exact .inr ⟨v, rfl⟩
    · intro hr
      rw [advance_rspq, hu.rspq_of_not_responds hr]

/-- Settles O44: of what can change the visible state, only an effect touches an accumulator. -/
theorem accumulatorsAreWrittenOnlyByTheirEngine : Obligations.AccumulatorsAreWrittenOnlyByTheirEngine := by
  intro s t e hstep hr hne
  obtain hview | ⟨hn, c, cs, i, u, hs, hd, hu, rfl⟩ | ⟨-, c, cs, -, -, rfl⟩ := step_view_cases hstep hr
  · exact absurd (accumulator_eq_of_view hview e) hne
  · rw [accumulator_advance] at hne
    exact ⟨hn, c, cs, i, hs, hd, hu.writesEngine_of_ne (by rwa [accumulator_following])⟩
  · simp at hne

/-- R29: without a reset the error state is kept but for an illegal word's record on a command turn. -/
theorem step_error_cases {s t : State} (h : step s = .next t) (hr : nextTurn s ≠ .reset) :
    (t.err = s.err ∧ t.errcmd = s.errcmd) ∨
    (nextTurn s = .command ∧ ∃ c cs, s.stream = c :: cs ∧ decode? c = none ∧
      t = advance (recordIllegal c (s.following s.schedule.tail))) := by
  obtain hview | ⟨-, c, cs, i, u, -, hd, hu, rfl⟩ | hillegal := step_view_cases h hr
  · exact .inl ⟨congrArg View.err hview, congrArg View.errcmd hview⟩
  · exact .inl (hu.error_frame (wellFormed_of_decode hd))
  · exact .inr hillegal

/-- Settles O45: the error state is kept, or an illegal word is recorded, which keeps errcmd once err is set. -/
theorem errorIsStickyAndHoldsTheFirst : Obligations.ErrorIsStickyAndHoldsTheFirst := by
  intro s t hstep hr
  obtain ⟨he, hc⟩ | ⟨hn, c, cs, hs, hd, rfl⟩ := step_error_cases hstep hr
  · exact ⟨fun h => ⟨he.trans h, hc⟩, fun _ _ => hc, fun h ht => by simp [he, h] at ht⟩
  · refine ⟨fun he => ⟨rfl, ?_⟩, fun _ ht => (nomatch ht), fun he _ => ⟨hn, ?_⟩⟩
    · simp [he]
    · simp [he, hs, hd]

/-- Settles O46, turn by turn. -/
theorem streamAdvancesByAtMostOne : Obligations.StreamAdvancesByAtMostOne := by
  intro s t hstep
  rw [step_eq] at hstep
  refine ⟨fun hn => ?_, fun hn => ?_⟩
  · rw [hn] at hstep
    exact commandTurn_stream (s := s.following s.schedule.tail) hstep
  · obtain hn | hn := hn <;> rw [hn] at hstep <;> obtain rfl := Host.Outcome.next.inj hstep
    · exact builderTurn_stream _
    · exact hostDrain_stream _

/-- Settles O47: an effect appends at most one word to the queue, and nothing else lengthens the visible responses. -/
theorem responsesLeaveInTheOrderProduced : Obligations.ResponsesLeaveInTheOrderProduced := by
  intro s t hstep hr
  refine ⟨?_, step_received hstep⟩
  obtain hview | ⟨hn, c, cs, i, u, -, hd, hu, rfl⟩ | ⟨-, c, cs, -, -, rfl⟩ := step_view_cases hstep hr
  · exact .inl (congrArg View.responses hview)
  · obtain ⟨-, -, -, -, hrec, -⟩ := hu.frame
    obtain hq | ⟨v, hq⟩ := hu.rspq_cases (wellFormed_of_decode hd)
    · exact .inl (by simp [hrec, hq])
    · exact .inr ⟨hn, v, by simp [hrec, hq]⟩
  · exact .inl rfl

/-- Settles O1, field by field. -/
theorem resetLeavesTheTabledValues : Obligations.ResetLeavesTheTabledValues :=
  ⟨rfl, rfl, rfl, fun i => ⟨entry_replicate_none i, entry_replicate_none i⟩, rfl, rfl, rfl, rfl, rfl, fun _ => rfl⟩

/-- Settles O16: the placed word is the head on a command turn. -/
theorem placedWordIsRunNext : Obligations.PlacedWordIsRunNext := by
  intro s nbits w i hd
  have hturn : step (s.withFetchWord nbits w) =
      commandStep (tableWord nbits w) { s with stream := tableWord nbits w :: s.stream } := rfl
  rw [hturn, commandStep_ok (decode_ok_iff.2 hd)]

/-- Settles O33: past the holds the read finds no value. -/
theorem readingAnUnwrittenEntryFaults : Obligations.ReadingAnUnwrittenEntryFaults := by
  intro s b ready
  rw [← lowByte_eq_setWidth]
  refine ⟨fun hnone => ?_, fun hnone => ?_, fun room => ⟨fun hnone => ?_, fun hnone => ?_⟩⟩
  · exact (whenTablesReady_of_done ready _).trans (withEntry_of_none hnone _)
  · exact (whenTablesReady_of_done ready _).trans (withEntry_of_none hnone _)
  · exact (whenTablesReady_of_done ready _).trans ((whenRoom_of_room room _).trans (withEntry_of_none hnone _))
  · exact (whenTablesReady_of_done ready _).trans ((whenRoom_of_room room _).trans (withEntry_of_none hnone _))

theorem tablesReady_eq (s : State) : s.tablesReady = (s.bidx == 256#9) := by
  rw [Bool.eq_iff_iff, tablesReady_iff, beq_iff_eq]

/-- Settles O36: each flag is one bit wide, ERR shifted up by one. -/
theorem statusBitsAreReadyAndErr : Obligations.StatusBitsAreReadyAndErr := by
  intro s
  rw [State.status, tablesReady_eq]
  refine ⟨by simp, by simp, fun k hk => ?_⟩
  have h0 : k ≠ 0 := by omega
  have h1 : k - 1 ≠ 0 := by omega
  simp [BitVec.getLsbD_setWidth, BitVec.getLsbD_ofBool, h0, h1]

end Sys2Proof.Machine

/-! PROOFS. The outlook of a command stream: every quiet step keeps it, so two interleavings agree (R59, R183, R185). -/

namespace Sys2Proof

/-! ## The word of an RREG -/

theorem initOf_ne_rreg (e : Engine) (n : Byte) : initOf e ≠ .rreg n := by cases e <;> nofun

theorem readOf_ne_rreg (e : Engine) (n : Byte) : readOf e ≠ .rreg n := by cases e <;> nofun

theorem decodePlain_ne_rreg {make : Engine → Instr} {n : Byte} (hmake : ∀ e, make e ≠ .rreg n) (eng : BitVec 2)
    (imm : Byte) : decodePlain make eng imm ≠ .ok (.rreg n) := by
  unfold decodePlain
  split
  · nofun
  · split_ifs
    · exact fun h => hmake _ (Except.ok.inj h)
    · nofun

theorem decodeFeed_ne_rreg (eng : BitVec 2) (imm n : Byte) : decodeFeed eng imm ≠ .ok (.rreg n) := by
  unfold decodeFeed
  split
  · nofun
  · next e _ => cases e <;> nofun

theorem decodeTread_ne_rreg (eng : BitVec 2) (imm n : Byte) : decodeTread eng imm ≠ .ok (.rreg n) := by
  unfold decodeTread
  split <;> nofun

theorem decodeRreg_eq_rreg {eng : BitVec 2} {imm n : Byte} (h : decodeRreg eng imm = .ok (.rreg n)) :
    eng = 0b00#2 ∧ imm = n := by
  unfold decodeRreg at h
  split_ifs at h with heng
  cases h
  exact ⟨heng, rfl⟩

/-- Only the branch `op = 0x5` of R78 gives an RREG, and it fixes every field of the word. -/
theorem eq_encode_of_decode_rreg {c : Word} {n : Byte} (h : decode c = .ok (.rreg n)) : c = encode (.rreg n) := by
  unfold decode at h
  split_ifs at h with hrsv _ _ _ _ _ _ hop
  · cases h
  · exact absurd h (decodePlain_ne_rreg (initOf_ne_rreg · n) _ _)
  · exact absurd h (decodeFeed_ne_rreg _ _ n)
  · exact absurd h (decodePlain_ne_rreg (readOf_ne_rreg · n) _ _)
  · exact absurd h (decodeTread_ne_rreg _ _ n)
  · obtain ⟨heng, himm⟩ := decodeRreg_eq_rreg h
    rw [word_eq_fields c, hop, heng, not_not.1 hrsv, himm]
    rfl

end Sys2Proof

namespace Sys2Proof.Machine

/-! ## What one command does to what is visible -/

@[simp] theorem view_respond (v : Word) (s : State) : (respond v s).view = s.view.answer v :=
  congrArg (View.mk s.acc8 s.acc16 s.accx s.err s.errcmd) (List.append_assoc s.received s.rspq [v]).symm

theorem View.command_of_decode {c : Word} {i : Instr} (h : decode c = .ok i) (v : View) :
    v.command c = v.perform i := by
  rw [View.command, h]

theorem view_recordIllegal {c : Word} (h : decode? c = none) (s : State) :
    (recordIllegal c s).view = s.view.command c := by
  cases hd : decode c with
  | ok i => exact absurd (decode_ok_iff.1 hd) (by simp [h])
  | error e =>
    rw [View.command, hd]
    rfl

/-- R185: an RREG with a fixed answer reads neither STATUS nor BUILD_IDX. -/
theorem two_le_of_fixedAnswer {c : Word} {n : Byte} (hd : decode c = .ok (.rreg n)) (hf : fixedAnswer c = true) :
    2 ≤ n.toNat := by
  by_contra hlt
  have hn : n = 0#8 ∨ n = 1#8 := by
    simp only [← BitVec.toNat_inj, BitVec.toNat_ofNat]
    omega
  rw [eq_encode_of_decode_rreg hd] at hf
  obtain rfl | rfl := hn <;> exact absurd hf (by decide)

/-- The registers from POLY8 up are constants and ERRCMD: nothing of the builder's (R184). -/
theorem perform_rreg {s : State} {n : Byte} {v : Word} (hn : 2 ≤ n.toNat) (read : s.register n = some v) :
    s.view.perform (.rreg n) = s.view.answer v := by
  have hle : n.toNat ≤ 8 := by
    by_contra hgt
    simp [register_of_reserved s (Nat.lt_of_not_le hgt)] at read
  have hcases : n = 2#8 ∨ n = 3#8 ∨ n = 4#8 ∨ n = 5#8 ∨ n = 6#8 ∨ n = 7#8 ∨ n = 8#8 := by
    simp only [← BitVec.toNat_inj, BitVec.toNat_ofNat]
    omega
  obtain rfl | rfl | rfl | rfl | rfl | rfl | rfl := hcases <;> cases read <;> rfl

/-- An effect does to what is visible what `View.perform` does: an entry that is read is the finished table's. -/
theorem Effect.view_eq {s u : State} {i : Instr} {c : Word} (h : Effect s i u) (hinv : s.Inv)
    (hd : decode c = .ok i) (hf : fixedAnswer c = true) : u.view = s.view.perform i := by
  cases h with
  | nop | initC8 | initC16 | initX8 | feedX8 => rfl
  | readC8 | readC16 | readX8 => exact view_respond _ s
  | feedC8 b v ready read =>
    cases (hinv.entry8_of_done ready _).symm.trans read
    rfl
  | feedC16 b v ready read =>
    cases (hinv.entry16_of_done ready _).symm.trans read
    rfl
  | treadC8 k v ready _ read =>
    cases (hinv.entry8_of_done ready _).symm.trans read
    exact view_respond _ s
  | treadC16 k v ready _ read =>
    cases (hinv.entry16_of_done ready _).symm.trans read
    exact view_respond _ s
  | rreg n v _ read => rw [view_respond, perform_rreg (two_le_of_fixedAnswer hd hf) read]
  | rregReserved n read =>
    obtain ⟨v, hv⟩ := register_of_legal s (legal_of_decode_rreg hd)
    cases hv.symm.trans read

/-! ## The outlook over a step -/

/-- The outlook is of the stream and what is visible only. -/
theorem outlook_congr {s t : State} (hstream : t.stream = s.stream) (hview : t.view = s.view) :
    t.outlook = s.outlook := by
  rw [State.outlook, State.outlook, hstream, hview]

/-- The head command, once it has had its effect, counts as visible and no longer as to come. -/
theorem outlook_advance {s u : State} {c : Word} {cs : List Word} (hs : s.stream = c :: cs)
    (hstream : u.stream = s.stream) (hview : u.view = s.view.command c) : (advance u).outlook = s.outlook := by
  calc (advance u).outlook
      = u.stream.tail.foldl View.command u.view := rfl
    _ = s.outlook := by rw [State.outlook, hstream, hview, hs, List.tail_cons, List.foldl_cons]

theorem commandTurn_outlook {s t : State} (hinv : s.Inv) (hf : ∀ c ∈ s.stream, fixedAnswer c = true)
    (h : commandTurn s = .next t) : t.outlook = s.outlook := by
  obtain rfl | ⟨c, cs, i, u, hs, hd, hu, rfl⟩ | ⟨c, cs, hs, hd, rfl⟩ := commandTurn_next_cases h
  · rfl
  · obtain ⟨-, -, -, hstream, -⟩ := hu.frame
    have hview : u.view = s.view.command c := by
      rw [View.command_of_decode hd, hu.view_eq hinv hd (hf c (by simp [hs]))]
    exact outlook_advance hs hstream hview
  · exact outlook_advance hs rfl (view_recordIllegal hd s)

/-- Settles O52: a command turn moves the head's effect from what is to come to what is visible; the builder and
a drain touch neither. -/
theorem outlookIsKeptByEveryQuietStep : Obligations.OutlookIsKeptByEveryQuietStep := by
  intro s t hinv hf hquiet hstep
  obtain ⟨-, h⟩ | ⟨-, rfl⟩ | ⟨c, hn, -⟩ | ⟨-, rfl⟩ | ⟨hn, -⟩ := step_next_cases hstep
  · exact commandTurn_outlook (s := s.following s.schedule.tail) (hinv.following _) hf h
  · exact outlook_congr (builderTurn_stream _) (builderTurn_view _)
  · simp [hn, Turn.quiet] at hquiet
  · exact outlook_congr (hostDrain_stream _) (hostDrain_view _)
  · simp [hn, Turn.quiet] at hquiet

/-! ## The outlook over a run of quiet turns -/

@[simp] theorem builderTurn_schedule (s : State) : (builderTurn s).schedule = s.schedule :=
  (congrArg State.schedule (builderTurn_frame s) :)

@[simp] theorem hostDrain_schedule (s : State) : (hostDrain s).schedule = s.schedule :=
  (congrArg State.schedule (hostDrain_frame s).1 :)

/-- A step uses its turn up (log 1). -/
theorem step_schedule {s t : State} (h : step s = .next t) : t.schedule = s.schedule.tail := by
  obtain ⟨-, h⟩ | ⟨-, rfl⟩ | ⟨c, -, rfl⟩ | ⟨-, rfl⟩ | ⟨-, rfl⟩ := step_next_cases h
  · obtain ⟨-, -, -, -, hsch, -⟩ := commandTurn_frame h
    exact hsch
  · exact builderTurn_schedule _
  · rfl
  · exact hostDrain_schedule _
  · rfl

/-- A quiet step presents no word: what is in the stream after it was there before (R35). -/
theorem step_stream_subset {s t : State} (h : step s = .next t) (hq : (nextTurn s).quiet = true) :
    t.stream ⊆ s.stream := by
  obtain ⟨hcommand, hother⟩ := streamAdvancesByAtMostOne s t h
  cases hn : nextTurn s with
  | command =>
    obtain hs | hs := hcommand hn
    · exact hs ▸ List.Subset.refl _
    · exact hs ▸ List.tail_subset _
  | builder => exact hother (.inl hn) ▸ List.Subset.refl _
  | drain => exact hother (.inr hn) ▸ List.Subset.refl _
  | present c => simp [hn, Turn.quiet] at hq
  | reset => simp [hn, Turn.quiet] at hq

/-- A run through a schedule of quiet turns keeps the outlook. -/
theorem run_outlook {ts : List Turn} (hquiet : ∀ x ∈ ts, x.quiet = true) {s t : State} (hinv : s.Inv)
    (hf : ∀ c ∈ s.stream, fixedAnswer c = true) (h : run ts.length (s.following ts) = .next t) :
    t.outlook = s.outlook := by
  induction ts generalizing s with
  | nil => cases h; rfl
  | cons x xs ih =>
    obtain ⟨u, hstep, hrun⟩ := run_succ_next h
    have hx : (nextTurn (s.following (x :: xs))).quiet = true := hquiet x List.mem_cons_self
    have hu : u.following xs = u := congrArg u.following (step_schedule hstep).symm
    have hfu : ∀ c ∈ u.stream, fixedAnswer c = true := fun c hc => hf c (step_stream_subset hstep hx hc)
    calc t.outlook
        = u.outlook := ih (fun y hy => hquiet y (List.mem_cons_of_mem x hy)) ((hinv.following _).of_step hstep) hfu
            (hu.symm ▸ hrun)
      _ = s.outlook := outlookIsKeptByEveryQuietStep (s.following (x :: xs)) u (hinv.following _) hf hx hstep

theorem outlook_of_stream_nil {s : State} (h : s.stream = []) : s.outlook = s.view := by
  rw [State.outlook, h, List.foldl_nil]

/-- Settles O53: what is visible at the end of either run is the outlook they began with. -/
theorem interleavingsAgreeOnEveryResponse : Obligations.InterleavingsAgreeOnEveryResponse := by
  intro s t u ts us hinv hf hts hus ht hu htnil hunil
  calc t.view
      = t.outlook := (outlook_of_stream_nil htnil).symm
    _ = s.outlook := run_outlook hts hinv hf ht
    _ = u.outlook := (run_outlook hus hinv hf hu).symm
    _ = u.view := outlook_of_stream_nil hunil

end Sys2Proof.Machine

/-! PROOFS. The decoder is the encoder's inverse, so the legal words are the words of the well-formed instructions: the
claims of 30_encoding.md follow from that (R70 to R78). -/

namespace Sys2Proof

/-! ## Decoding is the inverse of encoding -/

/-- The `eng` field of an engine (R71). -/
def engCode : Engine → BitVec 2
  | .c8 => 0b00#2
  | .c16 => 0b01#2
  | .x8 => 0b10#2

theorem eq_engCode_of_engineOf {x : BitVec 2} {e : Engine} (h : engineOf x = some e) : x = engCode e := by
  unfold engineOf at h
  split_ifs at h <;> cases h <;> assumption

theorem encode_initOf (e : Engine) : encode (initOf e) = encodeFields 0x1#4 (engCode e) 0x00#8 := by cases e <;> rfl

theorem encode_feedOf (b : Byte) (e : Engine) : encode (feedOf b e) = encodeFields 0x2#4 (engCode e) b := by
  cases e <;> rfl

theorem encode_readOf (e : Engine) : encode (readOf e) = encodeFields 0x3#4 (engCode e) 0x00#8 := by cases e <;> rfl

theorem encode_of_decodePlain {make : Engine → Instr} {op : BitVec 4} {eng : BitVec 2} {imm : Byte} {i : Instr}
    (hmake : ∀ e, encode (make e) = encodeFields op (engCode e) 0x00#8) (h : decodePlain make eng imm = .ok i) :
    encode i = encodeFields op eng imm := by
  unfold decodePlain at h
  split at h
  · cases h
  · next e he =>
    split_ifs at h with himm
    cases h
    rw [hmake, eq_engCode_of_engineOf he, himm]

theorem encode_of_decodeFeed {eng : BitVec 2} {imm : Byte} {i : Instr} (h : decodeFeed eng imm = .ok i) :
    encode i = encodeFields 0x2#4 eng imm := by
  unfold decodeFeed at h
  split at h
  · cases h
  · next e he =>
    cases h
    rw [encode_feedOf, eq_engCode_of_engineOf he]

theorem encode_of_decodeTread {eng : BitVec 2} {imm : Byte} {i : Instr} (h : decodeTread eng imm = .ok i) :
    encode i = encodeFields 0x4#4 eng imm := by
  unfold decodeTread at h
  split at h
  · cases h
  · next he =>
    cases h
    rw [eq_engCode_of_engineOf he]
    rfl
  · next he =>
    cases h
    rw [eq_engCode_of_engineOf he]
    rfl
  · cases h

theorem encode_of_decodeRreg {eng : BitVec 2} {imm : Byte} {i : Instr} (h : decodeRreg eng imm = .ok i) :
    encode i = encodeFields 0x5#4 eng imm := by
  unfold decodeRreg at h
  split_ifs at h with heng
  cases h
  rw [heng]
  rfl

theorem eq_encodeFields_of_rsvField {c : Word} (h : rsvField c = 0b00#2) :
    c = encodeFields (opField c) (engField c) (immField c) := by
  rw [encodeFields, ← h]
  exact word_eq_fields c

theorem eq_zero_of_opField_of_operand {c : Word} (hop : opField c = 0x0#4) (hoperand : c.extractLsb' 0 12 = 0x000#12) :
    c = 0x0000#16 := by
  simp only [opField, ← BitVec.toNat_inj, BitVec.extractLsb'_toNat, BitVec.toNat_ofNat, Nat.shiftRight_eq_div_pow]
    at hop hoperand ⊢
  omega

/-- Each branch of R78 fixes the four fields of the word. -/
theorem encode_of_decode {c : Word} {i : Instr} (h : decode c = .ok i) : encode i = c := by
  unfold decode at h
  split_ifs at h with hrsv hop hoperand hop hop hop hop hop
  · cases h
    rw [eq_zero_of_opField_of_operand hop hoperand]
    rfl
  all_goals rw [eq_encodeFields_of_rsvField (not_not.1 hrsv), hop]
  · exact encode_of_decodePlain encode_initOf h
  · exact encode_of_decodeFeed h
  · exact encode_of_decodePlain encode_readOf h
  · exact encode_of_decodeTread h
  · exact encode_of_decodeRreg h

/-- The legal words are the words of the well-formed instructions. -/
theorem decode?_eq_some_iff {c : Word} {i : Instr} : decode? c = some i ↔ i.wellFormed = true ∧ encode i = c := by
  rw [← decode_ok_iff]
  constructor
  · exact fun h => ⟨wellFormed_of_decode h, encode_of_decode h⟩
  · rintro ⟨hw, rfl⟩
    exact decode_encode hw

theorem some_eq_decode? {c : Word} (i : Instr) (hw : i.wellFormed = true) (h : c = encode i) : some i = decode? c :=
  (decode?_eq_some_iff.2 ⟨hw, h.symm⟩).symm

/-- Settles O5, by `decode_encode`. -/
theorem decodeOfEncodeIsTheInstruction : Obligations.DecodeOfEncodeIsTheInstruction :=
  fun _ => decode_encode

/-- Settles O6, by the branches of R78. -/
theorem encodeOfDecodeIsTheWord : Obligations.EncodeOfDecodeIsTheWord :=
  fun _ _ h => ⟨encode_of_decode h, wellFormed_of_decode h⟩

/-! ## The thirteen rows of R75 -/

theorem append_eq_append_iff {v w : Nat} {a b : BitVec v} {x y : BitVec w} : a ++ x = b ++ y ↔ a = b ∧ x = y := by
  constructor
  · intro h
    have hlow : x = y := by
      simpa only [BitVec.setWidth_append_eq_right] using congrArg (BitVec.setWidth w) h
    rw [hlow, BitVec.append_left_inj] at h
    exact ⟨h, hlow⟩
  · rintro ⟨rfl, rfl⟩
    rfl

theorem immField_eq_setWidth (c : Word) : immField c = c.setWidth 8 := Machine.lowByte_eq_setWidth c

theorem fields_and_mask (op : BitVec 4) (eng rsv : BitVec 2) (imm : Byte) :
    (op ++ eng ++ rsv ++ imm) &&& 0xFF00#16 = op ++ eng ++ rsv ++ 0x00#8 := by
  rw [show 0xFF00#16 = BitVec.allOnes (4 + 2 + 2) ++ 0x00#8 from rfl, BitVec.and_append, BitVec.and_allOnes,
    BitVec.and_zero]

theorem encodeFields_and_mask (op : BitVec 4) (eng : BitVec 2) (imm : Byte) :
    encodeFields op eng imm &&& 0xFF00#16 = encodeFields op eng 0x00#8 := fields_and_mask op eng 0b00#2 imm

theorem eq_encodeFields_of_mask {c : Word} (op : BitVec 4) (eng : BitVec 2)
    (h : c &&& 0xFF00#16 = encodeFields op eng 0x00#8) : c = encodeFields op eng (c.setWidth 8) := by
  rw [word_eq_fields c, fields_and_mask, encodeFields, append_eq_append_iff] at h
  rw [encodeFields, ← h.1, ← immField_eq_setWidth]
  exact word_eq_fields c

theorem encodeFields_eq_or (op : BitVec 4) (eng : BitVec 2) (imm : Byte) :
    encodeFields op eng imm = encodeFields op eng 0x00#8 ||| imm.setWidth 16 := by
  have himm : imm.setWidth 16 = 0#(4 + 2 + 2) ++ imm := BitVec.setWidth_eq_append (by decide)
  rw [himm, encodeFields, encodeFields, BitVec.or_append, BitVec.or_zero, BitVec.zero_or]

theorem encode_feedOf_eq_or (b : Byte) (e : Engine) :
    encode (feedOf b e) = encode (feedOf 0x00#8 e) ||| b.setWidth 16 := by
  rw [encode_feedOf, encode_feedOf]
  exact encodeFields_eq_or _ _ _

/-- Settles O7: a word of a row is the word of the row's instruction, and every legal word is of a row. -/
theorem legalWordsAreTheThirteenRows : Obligations.LegalWordsAreTheThirteenRows := by
  intro c
  apply Eq.symm
  refine ite_eq_iff'.2 ⟨some_eq_decode? .nop rfl, fun h1 => ?_⟩
  refine ite_eq_iff'.2 ⟨some_eq_decode? .initC8 rfl, fun h2 => ?_⟩
  refine ite_eq_iff'.2 ⟨some_eq_decode? .initC16 rfl, fun h3 => ?_⟩
  refine ite_eq_iff'.2 ⟨some_eq_decode? .initX8 rfl, fun h4 => ?_⟩
  refine ite_eq_iff'.2 ⟨some_eq_decode? (.feedC8 _) rfl ∘ eq_encodeFields_of_mask 0x2#4 0b00#2, fun h5 => ?_⟩
  refine ite_eq_iff'.2 ⟨some_eq_decode? (.feedC16 _) rfl ∘ eq_encodeFields_of_mask 0x2#4 0b01#2, fun h6 => ?_⟩
  refine ite_eq_iff'.2 ⟨some_eq_decode? (.feedX8 _) rfl ∘ eq_encodeFields_of_mask 0x2#4 0b10#2, fun h7 => ?_⟩
  refine ite_eq_iff'.2 ⟨some_eq_decode? .readC8 rfl, fun h8 => ?_⟩
  refine ite_eq_iff'.2 ⟨some_eq_decode? .readC16 rfl, fun h9 => ?_⟩
  refine ite_eq_iff'.2 ⟨some_eq_decode? .readX8 rfl, fun h10 => ?_⟩
  refine ite_eq_iff'.2 ⟨some_eq_decode? (.treadC8 _) rfl ∘ eq_encodeFields_of_mask 0x4#4 0b00#2, fun h11 => ?_⟩
  refine ite_eq_iff'.2 ⟨some_eq_decode? (.treadC16 _) rfl ∘ eq_encodeFields_of_mask 0x4#4 0b01#2, fun h12 => ?_⟩
  refine ite_eq_iff'.2
    ⟨fun h => some_eq_decode? (.rreg _) (decide_eq_true h.2) (eq_encodeFields_of_mask 0x5#4 0b00#2 h.1), fun h13 => ?_⟩
  refine Eq.symm <| Option.eq_none_iff_forall_ne_some.2 fun i hi => ?_
  obtain ⟨hw, rfl⟩ := decode?_eq_some_iff.1 hi
  cases i with
  | nop => exact h1 rfl
  | initC8 => exact h2 rfl
  | initC16 => exact h3 rfl
  | initX8 => exact h4 rfl
  | feedC8 b => exact h5 (encodeFields_and_mask _ _ b)
  | feedC16 b => exact h6 (encodeFields_and_mask _ _ b)
  | feedX8 b => exact h7 (encodeFields_and_mask _ _ b)
  | readC8 => exact h8 rfl
  | readC16 => exact h9 rfl
  | readX8 => exact h10 rfl
  | treadC8 k => exact h11 (encodeFields_and_mask _ _ k)
  | treadC16 k => exact h12 (encodeFields_and_mask _ _ k)
  | rreg n =>
    refine h13 ⟨encodeFields_and_mask _ _ n, ?_⟩
    rw [← immField_eq_setWidth]
    exact (immField_encodeFields _ _ n).symm ▸ of_decide_eq_true hw

/-! ## What a legal word's fields satisfy (R74, R76, R77) -/

/-- What the four fields of a legal word satisfy: R74's reserved bits, R77's opcodes and, operation by operation, R76's
engines and immediates. -/
structure LegalFields (op : BitVec 4) (eng rsv : BitVec 2) (imm : Byte) : Prop where
  rsv_eq : rsv = 0b00#2
  op_le : op.toNat ≤ 5
  nop : op = 0x0#4 → eng = 0b00#2 ∧ imm = 0x00#8
  init : op = 0x1#4 → eng ≠ 0b11#2 ∧ imm = 0x00#8
  feed : op = 0x2#4 → eng ≠ 0b11#2
  read : op = 0x3#4 → eng ≠ 0b11#2 ∧ imm = 0x00#8
  tread : op = 0x4#4 → eng ≠ 0b10#2 ∧ eng ≠ 0b11#2
  rreg : op = 0x5#4 → eng = 0b00#2 ∧ imm.toNat ≤ 8

/-- R75, row by row: the fields of the row's word. -/
theorem exists_legalFields {i : Instr} (h : i.wellFormed = true) :
    ∃ op eng imm, encode i = encodeFields op eng imm ∧ LegalFields op eng 0b00#2 imm := by
  cases i with
  | nop | initC8 | initC16 | initX8 | readC8 | readC16 | readX8 => exact ⟨_, _, _, rfl, by constructor <;> decide⟩
  | feedC8 b | feedC16 b | feedX8 b => exact ⟨_, _, _, rfl, by constructor <;> simp⟩
  | treadC8 k | treadC16 k => exact ⟨_, _, _, rfl, by constructor <;> simp⟩
  | rreg n =>
    have hn : n.toNat ≤ 8 := of_decide_eq_true h
    exact ⟨_, _, _, rfl, by constructor <;> simp [hn]⟩

/-- A word is decoded only if its fields are those of a row. -/
theorem LegalFields.of_decode? {op : BitVec 4} {eng rsv : BitVec 2} {imm : Byte} {i : Instr}
    (h : decode? (op ++ eng ++ rsv ++ imm) = some i) : LegalFields op eng rsv imm := by
  obtain ⟨hw, hword⟩ := decode?_eq_some_iff.1 h
  obtain ⟨op', eng', imm', henc, hlegal⟩ := exists_legalFields hw
  rw [henc, encodeFields, append_eq_append_iff, append_eq_append_iff, append_eq_append_iff] at hword
  obtain ⟨⟨⟨rfl, rfl⟩, rfl⟩, rfl⟩ := hword
  exact hlegal

theorem legalFields_of_decode? {c : Word} {i : Instr} (h : decode? c = some i) :
    LegalFields (opField c) (engField c) (rsvField c) (immField c) :=
  .of_decode? (word_eq_fields c ▸ h)

theorem decode?_eq_none_of_not_legalFields {op : BitVec 4} {eng rsv : BitVec 2} {imm : Byte}
    (h : ¬ LegalFields op eng rsv imm) : decode? (op ++ eng ++ rsv ++ imm) = none :=
  Option.eq_none_iff_forall_ne_some.2 fun _ hi => h (.of_decode? hi)

/-- Settles O8: bits 8 and 9 are the bits of `rsv`. -/
theorem reservedBitsAreIllegal : Obligations.ReservedBitsAreIllegal := by
  intro c hbit
  refine Option.eq_none_iff_forall_ne_some.2 fun i hi => ?_
  have hrsv := (legalFields_of_decode? hi).rsv_eq
  have h8 : c.getLsbD 8 = (rsvField c).getLsbD 0 := by simp [rsvField]
  have h9 : c.getLsbD 9 = (rsvField c).getLsbD 1 := by simp [rsvField]
  rw [h8, h9, hrsv] at hbit
  exact absurd hbit (by decide)

/-- Settles O9: each combination breaks what a legal word's fields satisfy. -/
theorem illegalCombinationsAreRefused : Obligations.IllegalCombinationsAreRefused := by
  intro eng rsv imm
  refine ⟨fun hne => ?_, ?_, ?_, ?_, fun himm => ⟨?_, ?_⟩, ?_, ?_, fun heng => ?_, fun himm => ?_⟩ <;>
    refine decode?_eq_none_of_not_legalFields fun h => ?_
  · obtain ⟨rfl, rfl⟩ := h.nop rfl
    obtain rfl := h.rsv_eq
    exact hne rfl
  · exact (h.init rfl).1 rfl
  · exact h.feed rfl rfl
  · exact (h.read rfl).1 rfl
  · exact himm (h.init rfl).2
  · exact himm (h.read rfl).2
  · exact (h.tread rfl).1 rfl
  · exact (h.tread rfl).2 rfl
  · exact heng (h.rreg rfl).1
  · have := (h.rreg rfl).2
    omega

theorem opField_toNat (c : Word) : (opField c).toNat = c.toNat / 4096 := by
  rw [opField, BitVec.extractLsb'_toNat, Nat.shiftRight_eq_div_pow]
  have := c.isLt
  omega

/-- Settles O10: `op` is at most 5 in a legal word, and NOP has the one word it encodes to. -/
theorem reservedOpcodesAreIllegal : Obligations.ReservedOpcodesAreIllegal := by
  intro c
  constructor
  · intro hc
    refine Option.eq_none_iff_forall_ne_some.2 fun i hi => ?_
    have hop := (legalFields_of_decode? hi).op_le
    rw [opField_toNat] at hop
    omega
  · intro hnop
    exact (decode?_eq_some_iff.1 hnop).2.symm

/-! ## The number of legal words (R78) -/

/-- Every byte, once. -/
def allBytes : List Byte := (List.finRange 256).map BitVec.ofFin

theorem mem_allBytes (b : Byte) : b ∈ allBytes := List.mem_map.2 ⟨b.toFin, List.mem_finRange _, rfl⟩

theorem nodup_allBytes : allBytes.Nodup :=
  (List.nodup_finRange 256).map fun _ _ h => congrArg BitVec.toFin h

theorem length_allBytes : allBytes.length = 256 := by rw [allBytes, List.length_map, List.length_finRange]

/-- The well-formed instructions, operation by operation as R78 counts them. -/
def wellFormedInstrs : List Instr :=
  [[.nop], [.initC8, .initC16, .initX8],
   allBytes.map Instr.feedC8, allBytes.map Instr.feedC16, allBytes.map Instr.feedX8, [.readC8, .readC16, .readX8],
   allBytes.map Instr.treadC8, allBytes.map Instr.treadC16, (allBytes.filter legalRegister).map Instr.rreg].flatten

theorem mem_wellFormedInstrs {i : Instr} : i ∈ wellFormedInstrs ↔ i.wellFormed = true := by
  cases i <;> simp [wellFormedInstrs, mem_allBytes, Instr.wellFormed]

theorem nodup_wellFormedInstrs : wellFormedInstrs.Nodup := by
  have hmap {make : Byte → Instr} (hmake : Function.Injective make) : (allBytes.map make).Nodup :=
    nodup_allBytes.map hmake
  have hregs : ((allBytes.filter legalRegister).map Instr.rreg).Nodup :=
    (nodup_allBytes.filter _).map fun _ _ => Instr.rreg.inj
  simp [wellFormedInstrs, List.nodup_append', List.disjoint_left, hregs, hmap (fun _ _ => Instr.feedC8.inj),
    hmap (fun _ _ => Instr.feedC16.inj), hmap (fun _ _ => Instr.feedX8.inj), hmap (fun _ _ => Instr.treadC8.inj),
    hmap (fun _ _ => Instr.treadC16.inj)]

theorem length_wellFormedInstrs : wellFormedInstrs.length = 1296 := by
  have hregs : (allBytes.filter legalRegister).length = 9 := by decide
  simp [wellFormedInstrs, length_allBytes, hregs]

theorem eq_of_encode_eq {i j : Instr} (hi : i.wellFormed = true) (hj : j.wellFormed = true) (h : encode i = encode j) :
    i = j :=
  Except.ok.inj ((decode_encode hi).symm.trans (h ▸ decode_encode hj))

/-- The numbers of the legal words, instruction by instruction. -/
def legalNumbers : List Nat := wellFormedInstrs.map fun i => (encode i).toNat

theorem nodup_legalNumbers : legalNumbers.Nodup :=
  nodup_wellFormedInstrs.map_on fun _ hi _ hj h =>
    eq_of_encode_eq (mem_wellFormedInstrs.1 hi) (mem_wellFormedInstrs.1 hj) (BitVec.eq_of_toNat_eq h)

theorem mem_legalNumbers {n : Nat} : n ∈ legalNumbers ↔ n < 65536 ∧ (decode? (BitVec.ofNat 16 n)).isSome = true := by
  simp only [legalNumbers, List.mem_map, mem_wellFormedInstrs, Option.isSome_iff_exists, decode?_eq_some_iff]
  constructor
  · rintro ⟨i, hw, rfl⟩
    exact ⟨(encode i).isLt, i, hw, ((BitVec.ofNat_toNat 16 _).trans (BitVec.setWidth_eq _)).symm⟩
  · rintro ⟨hn, i, hw, hi⟩
    refine ⟨i, hw, ?_⟩
    rw [hi, BitVec.toNat_ofNat, Nat.mod_eq_of_lt hn]

/-- Settles O11: the legal words are, each once, those of the 1296 well-formed instructions. -/
theorem legalWordsNumber1296 : Obligations.LegalWordsNumber1296 := by
  have hperm : ((List.range 65536).filter fun n => (decode? (BitVec.ofNat 16 n)).isSome).Perm legalNumbers := by
    rw [List.perm_ext_iff_of_nodup (List.nodup_range.filter _) nodup_legalNumbers]
    intro n
    rw [List.mem_filter, List.mem_range, mem_legalNumbers]
  exact List.countP_eq_length_filter.trans <|
    hperm.length_eq.trans <| (List.length_map _).trans length_wellFormedInstrs

/-- Settles O12, by computation on the nine words. -/
theorem sampleWordsDecode : Obligations.SampleWordsDecode := by
  unfold Obligations.SampleWordsDecode
  decide

end Sys2Proof

namespace Sys2Proof.Machine

theorem exec_rreg_of_reserved (s : State) {n : Byte} (h : 9 ≤ n.toNat) :
    exec (.rreg n) s = .next (advance (recordIllegal (encode (.rreg n)) s)) := by
  change execRreg n s = _
  rw [execRreg, register_of_reserved s h]
  rfl

/-- Settles O31: the word has the fields that R76 refuses, and no register answers the number. -/
theorem rregOfReservedNumberIsIllegal : Obligations.RregOfReservedNumberIsIllegal := by
  intro s n hn
  have hword : encode (.rreg n) = 0x5000#16 ||| n.setWidth 16 := encodeFields_eq_or 0x5#4 0b00#2 n
  rw [← hword]
  constructor
  · refine decode?_eq_none_of_not_legalFields fun h => ?_
    have hlegal := (h.rreg rfl).2
    omega
  · exact exec_rreg_of_reserved s hn

end Sys2Proof.Machine

/-! PROOFS. What the assembler writes (R80, R81, R203): a number in range is taken as it is, and but for `.word` every
word is that of a well-formed instruction. -/

namespace Sys2Proof.Machine

/-! ## Numbers in and out of range -/

theorem boundedNumber_of_le {bound n : Nat} {text : List Char} (h : number (trimmed text) = some n) (hn : n ≤ bound) :
    boundedNumber bound text = .ok n := by
  simp [boundedNumber, h, hn]

theorem boundedNumber_of_gt {bound n : Nat} {text : List Char} (h : number (trimmed text) = some n) (hn : bound < n) :
    boundedNumber bound text = .error .operandOutOfRange := by
  simp [boundedNumber, h, Nat.not_le.2 hn]

theorem byteOperand_of_le {n : Nat} {text : List Char} (h : number (trimmed text) = some n) (hn : n ≤ 255) :
    byteOperand text = .ok (BitVec.ofNat 8 n) := by
  rw [byteOperand, boundedNumber_of_le h hn]

theorem byteOperand_of_gt {n : Nat} {text : List Char} (h : number (trimmed text) = some n) (hn : 255 < n) :
    byteOperand text = .error .operandOutOfRange := by
  rw [byteOperand, boundedNumber_of_gt h hn]

theorem assembleForm_feed (e : Engine) (text : List Char) :
    assembleForm (.feed e) text = oneWord (fun b => feedOf b e) (byteOperand text) := rfl

/-- Settles O58: FEED's operand is one byte operand, in range or refused. -/
theorem assemblerRefusesAnOperandOverAByte : Obligations.AssemblerRefusesAnOperandOverAByte := by
  intro e text n h
  rw [assembleForm_feed]
  constructor
  · intro hn
    rw [byteOperand_of_gt h hn]
    rfl
  · intro hn
    rw [byteOperand_of_le h hn]
    exact ⟨BitVec.ofNat 8 n, (BitVec.toNat_ofNat n 8).trans (Nat.mod_eq_of_lt (Nat.lt_succ_of_le hn)), rfl⟩

/-! ## Pseudo-instructions -/

theorem assembleForm_checksum {text : List Char} {bytes : List Byte} (h : byteList text = .ok bytes) (e : Engine) :
    assembleForm (.checksum e) text = .ok ((checksumProgram bytes e).map encode) := by
  rw [assembleForm, h]

theorem checksumProgram_eq (bytes : List Byte) (e : Engine) :
    checksumProgram bytes e = initOf e :: (bytes.map (feedOf · e) ++ [readOf e]) := by
  cases e <;> rfl

/-- The words of a checksum program: FEED's word is that of the byte 0 with the byte in its low bits. -/
theorem map_encode_checksumProgram (bytes : List Byte) (e : Engine) :
    (checksumProgram bytes e).map encode =
      encode (initOf e) ::
        (bytes.map (fun b => encode (feedOf 0x00#8 e) ||| b.setWidth 16) ++ [encode (readOf e)]) := by
  simp [checksumProgram_eq, Function.comp_def, ← encode_feedOf_eq_or]

/-- Settles O60, engine by engine. -/
theorem pseudoInstructionsExpand : Obligations.PseudoInstructionsExpand := by
  intro text bytes h
  simp only [assembleForm_checksum h, map_encode_checksumProgram]
  exact ⟨rfl, rfl, rfl⟩

/-! ## Legal words only -/

theorem oneWord_ok {make : Byte → Instr} {operand : Except AsmError Byte} {ws : List Word}
    (h : oneWord make operand = .ok ws) : ∃ b, operand = .ok b ∧ ws = [encode (make b)] := by
  cases operand with
  | ok b => exact ⟨b, rfl, (Except.ok.inj h).symm⟩
  | error e => cases h

/-- A register operand is a name's number, at most 8, or a number that was tested. -/
theorem legalRegister_of_registerOperand {text : List Char} {n : Byte} (h : registerOperand text = .ok n) :
    legalRegister n = true := by
  unfold registerOperand at h
  dsimp only at h
  split at h
  · next hname =>
    cases h
    have hlt : registerNames.idxOf (trimmed text) < 9 := hname
    exact decide_eq_true (by rw [BitVec.toNat_ofNat]; omega)
  · split at h
    · split_ifs at h with hlegal
      cases h
      exact hlegal
    · cases h

theorem wellFormed_initOf (e : Engine) : (initOf e).wellFormed = true := by cases e <;> rfl

theorem wellFormed_feedOf (b : Byte) (e : Engine) : (feedOf b e).wellFormed = true := by cases e <;> rfl

theorem wellFormed_readOf (e : Engine) : (readOf e).wellFormed = true := by cases e <;> rfl

theorem wellFormed_of_mem_checksumProgram {bytes : List Byte} {e : Engine} {i : Instr}
    (h : i ∈ checksumProgram bytes e) : i.wellFormed = true := by
  rw [checksumProgram_eq, List.mem_cons, List.mem_append, List.mem_map, List.mem_singleton] at h
  obtain rfl | ⟨b, -, rfl⟩ | rfl := h
  · exact wellFormed_initOf e
  · exact wellFormed_feedOf b e
  · exact wellFormed_readOf e

/-- A mnemonic without operands is no RREG, the one kind of instruction that can be ill-formed. -/
theorem wellFormed_of_plain_mem {name : List Char} {i : Instr} (h : (name, .plain i) ∈ mnemonics) :
    i.wellFormed = true := by
  cases i with
  | rreg n => simp [mnemonics] at h
  | _ => rfl

theorem exists_wellFormed_of_oneWord {make : Byte → Instr} {operand : Except AsmError Byte} {ws : List Word}
    (h : oneWord make operand = .ok ws) (hmake : ∀ b, operand = .ok b → (make b).wellFormed = true) :
    ∃ is : List Instr, (∀ i ∈ is, i.wellFormed = true) ∧ ws = is.map encode := by
  obtain ⟨b, hb, rfl⟩ := oneWord_ok h
  exact ⟨[make b], by simpa using hmake b hb, rfl⟩

/-- Form by form, what a line other than `.word` assembles to is a program of well-formed instructions. -/
theorem exists_wellFormed_of_assembleForm {name text : List Char} {form : AsmForm} {ws : List Word}
    (hmem : (name, form) ∈ mnemonics) (hform : form ≠ .word) (h : assembleForm form text = .ok ws) :
    ∃ is : List Instr, (∀ i ∈ is, i.wellFormed = true) ∧ ws = is.map encode := by
  cases form with
  | plain i =>
    unfold assembleForm at h
    split_ifs at h
    cases h
    exact ⟨[i], by simpa using wellFormed_of_plain_mem hmem, rfl⟩
  | feed e => exact exists_wellFormed_of_oneWord h fun b _ => wellFormed_feedOf b e
  | tread8 => exact exists_wellFormed_of_oneWord h fun _ _ => rfl
  | tread16 => exact exists_wellFormed_of_oneWord h fun _ _ => rfl
  | register => exact exists_wellFormed_of_oneWord h fun _ => legalRegister_of_registerOperand
  | word => exact absurd rfl hform
  | checksum e =>
    cases hbytes : byteList text with
    | ok bytes =>
      rw [assembleForm_checksum hbytes] at h
      cases h
      exact ⟨_, fun _ => wellFormed_of_mem_checksumProgram, rfl⟩
    | error err => simp [assembleForm, hbytes] at h

/-- Settles O59: the words are those of well-formed instructions, and these are legal. -/
theorem onlyDotWordWritesIllegalWords : Obligations.OnlyDotWordWritesIllegalWords := by
  intro name text form ws hmem hform h w hw
  obtain ⟨is, his, rfl⟩ := exists_wellFormed_of_assembleForm hmem hform h
  obtain ⟨i, hi, rfl⟩ := List.mem_map.1 hw
  simp [decode?_eq_some_iff.2 ⟨his i hi, rfl⟩]

end Sys2Proof.Machine

/-! PROOFS. The division steps of R100 and R101 are linear over XOR and one-to-one, so the finished tables are (R105),
and FEED is eight division steps without a table (R122, R142). -/

namespace Sys2Proof.Machine

theorem done_of_bidx {s : State} (h : s.bidx = 256#9) : 256 ≤ s.bidx.toNat :=
  Nat.le_of_eq (congrArg BitVec.toNat h).symm

/-! ## Functions that are linear over XOR -/

/-- f takes the XOR of two values to the XOR of their images. -/
def XorLinear {v w : Nat} (f : BitVec v → BitVec w) : Prop := ∀ a b, f (a ^^^ b) = f a ^^^ f b

theorem XorLinear.map_zero {v w : Nat} {f : BitVec v → BitVec w} (h : XorLinear f) : f 0#v = 0#w := by
  have h0 := h 0#v 0#v
  rwa [BitVec.xor_self, BitVec.xor_self] at h0

/-- A linear function whose kernel is 0 is one-to-one. -/
theorem XorLinear.injective {v w : Nat} {f : BitVec v → BitVec w} (h : XorLinear f) (hker : ∀ a, f a = 0#w → a = 0#v) :
    Function.Injective f := by
  intro a b hab
  have hzero : f (a ^^^ b) = 0#w := by rw [h, hab, BitVec.xor_self]
  exact BitVec.xor_eq_zero_iff.1 (hker _ hzero)

theorem XorLinear.comp {u v w : Nat} {f : BitVec v → BitVec w} {g : BitVec u → BitVec v} (hf : XorLinear f)
    (hg : XorLinear g) : XorLinear (f ∘ g) := by
  intro a b
  rw [Function.comp_apply, hg, hf]
  rfl

theorem XorLinear.iterate {w : Nat} {f : BitVec w → BitVec w} (h : XorLinear f) (n : Nat) : XorLinear f^[n] := by
  induction n with
  | zero => exact fun _ _ => rfl
  | succ n ih => exact ih.comp h

theorem XorLinear.xor {v w : Nat} {f g : BitVec v → BitVec w} (hf : XorLinear f) (hg : XorLinear g) :
    XorLinear fun r => f r ^^^ g r := by
  intro a b
  simp only [hf a b, hg a b]
  ac_rfl

theorem xorLinear_zext16 : XorLinear zext16 := fun _ _ => BitVec.setWidth_xor

theorem zext16_injective : Function.Injective zext16 := by
  intro a b h
  simpa [zext16] using congrArg (BitVec.setWidth 8) h

/-! ## The division steps -/

/-- Both division steps in one: shift, and XOR the polynomial in when bit k was set before. -/
def shiftAndReduce {w : Nat} (shift : BitVec w → BitVec w) (k : Nat) (poly r : BitVec w) : BitVec w :=
  if r.getLsbD k then shift r ^^^ poly else shift r

theorem divStep8_eq : divStep8 = shiftAndReduce (· <<< 1) 7 Config.poly8 := rfl

theorem divStep16_eq : divStep16 = shiftAndReduce (· >>> 1) 0 Config.poly16 := rfl

theorem xorLinear_whenBit {w : Nat} (k : Nat) (poly : BitVec w) :
    XorLinear fun r : BitVec w => if r.getLsbD k then poly else 0#w := by
  intro a b
  cases ha : a.getLsbD k <;> cases hb : b.getLsbD k <;> simp [ha, hb]

/-- A division step is the XOR of two linear functions, the shift and the polynomial's multiple by bit k. -/
theorem shiftAndReduce_linear {w : Nat} {shift : BitVec w → BitVec w} (hs : XorLinear shift) (k : Nat)
    (poly : BitVec w) : XorLinear (shiftAndReduce shift k poly) := by
  have hsum : shiftAndReduce shift k poly = fun r => shift r ^^^ if r.getLsbD k then poly else 0#w := by
    funext r
    unfold shiftAndReduce
    split <;> simp
  exact hsum ▸ hs.xor (xorLinear_whenBit k poly)

/-- A bit that the polynomial sets and the shift leaves clear shows whether the polynomial was XORed in, so that only 0
is stepped to 0. -/
theorem shiftAndReduce_injective {w : Nat} {shift : BitVec w → BitVec w} (hs : XorLinear shift) {k j : Nat}
    {poly : BitVec w} (hpoly : poly.getLsbD j = true) (hclear : ∀ r, (shift r).getLsbD j = false)
    (hker : ∀ r, r.getLsbD k = false → shift r = 0#w → r = 0#w) :
    Function.Injective (shiftAndReduce shift k poly) := by
  refine (shiftAndReduce_linear hs k poly).injective fun r hr => ?_
  cases hk : r.getLsbD k with
  | false =>
    rw [shiftAndReduce, if_neg (by simp [hk])] at hr
    exact hker r hk hr
  | true =>
    rw [shiftAndReduce, if_pos hk, BitVec.xor_eq_zero_iff] at hr
    have hj := hclear r
    rw [hr, hpoly] at hj
    cases hj

theorem xorLinear_divStep8 : XorLinear divStep8 :=
  divStep8_eq ▸ shiftAndReduce_linear (fun a b => BitVec.shiftLeft_xor_distrib a b 1) _ _

theorem xorLinear_divStep16 : XorLinear divStep16 :=
  divStep16_eq ▸ shiftAndReduce_linear (fun a b => BitVec.ushiftRight_xor_distrib a b 1) _ _

theorem divStep8_injective : Function.Injective divStep8 := by
  rw [divStep8_eq]
  refine shiftAndReduce_injective (j := 0) (fun a b => BitVec.shiftLeft_xor_distrib a b 1) rfl (by simp) ?_
  intro r h7 hr
  apply BitVec.eq_of_getLsbD_eq
  intro k hk
  obtain rfl | hlt : k = 7 ∨ k < 7 := by omega
  · exact h7
  · have hbit := congrArg (BitVec.getLsbD · (k + 1)) hr
    simpa [show k + 1 < 8 by omega, hk] using hbit

theorem divStep16_injective : Function.Injective divStep16 := by
  rw [divStep16_eq]
  refine shiftAndReduce_injective (j := 15) (fun a b => BitVec.ushiftRight_xor_distrib a b 1) rfl (by simp) ?_
  intro r h0 hr
  apply BitVec.eq_of_getLsbD_eq
  intro k hk
  cases k with
  | zero => exact h0
  | succ k =>
    have hbit := congrArg (BitVec.getLsbD · k) hr
    simpa [Nat.add_comm] using hbit

/-! ## The entry functions -/

theorem repeatStep_eq_iterate {α : Type} (f : α → α) (n : Nat) : repeatStep f n = f^[n] := by
  induction n with
  | zero => rfl
  | succ n ih =>
    funext r
    exact congrFun ih (f r)

theorem entry8_eq : entry8 = divStep8^[8] := repeatStep_eq_iterate divStep8 8

theorem entry16_eq : entry16 = divStep16^[8] ∘ zext16 :=
  congrArg (· ∘ zext16) (repeatStep_eq_iterate divStep16 8)

theorem xorLinear_entry8 : XorLinear entry8 := entry8_eq ▸ xorLinear_divStep8.iterate 8

theorem xorLinear_entry16 : XorLinear entry16 := entry16_eq ▸ (xorLinear_divStep16.iterate 8).comp xorLinear_zext16

theorem entry8_injective : Function.Injective entry8 := entry8_eq ▸ divStep8_injective.iterate 8

theorem entry8_surjective : Function.Surjective entry8 := Finite.surjective_of_injective entry8_injective

theorem entry16_injective : Function.Injective entry16 :=
  entry16_eq ▸ (divStep16_injective.iterate 8).comp zext16_injective

/-- A table that holds a linear function at every index is linear as a table. -/
theorem linear_of_entries {w : Nat} {t : Vector (Option (BitVec w)) 256} {f : Byte → BitVec w} (hf : XorLinear f)
    (ht : ∀ i, entry t i = some (f i)) (a b : Byte) :
    ∃ x y, entry t a = some x ∧ entry t b = some y ∧ entry t (a ^^^ b) = some (x ^^^ y) :=
  ⟨f a, f b, ht a, ht b, by rw [ht, hf]⟩

/-- A table that holds a one-to-one function at every index has distinct entries. -/
theorem injective_of_entries {w : Nat} {t : Vector (Option (BitVec w)) 256} {f : Byte → BitVec w}
    (hf : Function.Injective f) (ht : ∀ i, entry t i = some (f i)) (a b : Byte) (h : entry t a = entry t b) :
    a = b := by
  rw [ht, ht] at h
  exact hf (Option.some.inj h)

/-- Settles O38: with the tables ready the entries are E8's and E16's, which are linear and one-to-one. -/
theorem readyTablesAreLinearAndInjective : Obligations.ReadyTablesAreLinearAndInjective := by
  intro s hinv hb
  have ready : 256 ≤ s.bidx.toNat := done_of_bidx hb
  have h8 : ∀ i, entry s.t8 i = some (entry8 i) := hinv.entry8_of_done ready
  have h16 : ∀ i, entry s.t16 i = some (entry16 i) := hinv.entry16_of_done ready
  refine ⟨linear_of_entries xorLinear_entry8 h8, linear_of_entries xorLinear_entry16 h16,
    injective_of_entries entry8_injective h8, fun v => ?_, injective_of_entries entry16_injective h16, ?_⟩
  · obtain ⟨i, rfl⟩ := entry8_surjective v
    exact ⟨i, h8 i⟩
  · simp only [h8, h16]
    decide

/-! ## FEED without a table -/

/-- While no set bit reaches bit 0, a reflected division step is a plain shift (R101). -/
theorem iterate_divStep16_of_low_clear {n : Nat} {r : Word} (h : ∀ k < n, r.getLsbD k = false) :
    divStep16^[n] r = r >>> n := by
  induction n generalizing r with
  | zero => simp
  | succ n ih =>
    have hstep : divStep16 r = r >>> 1 := if_neg (by simpa using h 0 n.succ_pos)
    have hlow : ∀ k < n, (r >>> 1).getLsbD k = false := fun k hk => by simpa using h (1 + k) (by omega)
    rw [Function.iterate_succ_apply, hstep, ih hlow, ← BitVec.shiftRight_add, Nat.add_comm]

/-- A word is its high byte XOR its low byte. -/
theorem eq_high_xor_low (v : Word) : v = (v >>> 8 <<< 8) ^^^ zext16 (lowByte v) := by
  apply BitVec.eq_of_getLsbD_eq
  intro k hk
  by_cases h8 : k < 8
  · simp [zext16, lowByte, h8, hk]
  · simp [zext16, lowByte, h8, hk, show 8 + (k - 8) = k by omega]

/-- R142: the low byte goes through the table, the high byte is shifted into its place. -/
theorem directStep16_eq_foldStep16 (acc : Word) (b : Byte) : directStep16 acc b = foldStep16 acc b := by
  have hsplit : acc ^^^ zext16 b = (acc >>> 8 <<< 8) ^^^ zext16 (lowByte acc ^^^ b) := by
    rw [xorLinear_zext16, ← BitVec.xor_assoc, ← eq_high_xor_low]
  have hhigh : divStep16^[8] (acc >>> 8 <<< 8) = acc >>> 8 := by
    rw [iterate_divStep16_of_low_clear fun k hk => by simp [hk]]
    apply BitVec.eq_of_getLsbD_eq
    intro k _
    simpa using BitVec.lt_of_getLsbD (x := acc) (i := 8 + k)
  rw [directStep16, repeatStep_eq_iterate, hsplit, xorLinear_divStep16.iterate, hhigh, foldStep16, entry16_eq]
  rfl

/-- Settles O24: the table's entry is eight division steps of its index, which are linear. -/
theorem feedC8IsEightDivisionSteps : Obligations.FeedC8IsEightDivisionSteps := by
  intro s b hinv hb
  have ready : 256 ≤ s.bidx.toNat := done_of_bidx hb
  have hexec : exec (.feedC8 b) s = .next (advance { s with acc8 := entry8 (s.acc8 ^^^ b) }) :=
    exec_feedC8_of_entry ready (hinv.entry8_of_done ready _)
  refine ⟨hexec, fun hacc => ?_⟩
  rw [hexec, hacc, BitVec.xor_self, xorLinear_entry8.map_zero]
  rfl

/-- Settles O26: a FEED is a step of the fold, which the division steps without a table agree with. -/
theorem feedC16IsEightReflectedDivisionSteps : Obligations.FeedC16IsEightReflectedDivisionSteps := by
  intro s b hinv hb
  have ready : 256 ≤ s.bidx.toNat := done_of_bidx hb
  have hexec : exec (.feedC16 b) s = .next (advance { s with acc16 := foldStep16 s.acc16 b }) :=
    exec_feedC16_of_entry ready (hinv.entry16_of_done ready _)
  constructor
  · rw [hexec, ← directStep16_eq_foldStep16]
    rfl
  · intro hacc
    rw [hexec, foldStep16, lowByte_eq_setWidth, hacc, BitVec.xor_self, xorLinear_entry16.map_zero, BitVec.xor_zero]
    rfl

end Sys2Proof.Machine

/-! PROOFS. Turns of the builder in a row, with and without a schedule, and the reads of a table (R102, R103, R106,
R107, R108). -/

namespace Sys2Proof.Machine

/-! ## The builder's turns, one after another -/

/-- Settles O37: the turn is the builder's step while it has one. -/
theorem builderStepWritesOneEntryOfEach : Obligations.BuilderStepWritesOneEntryOfEach := by
  intro s
  refine ⟨fun hb => ⟨builderStep s, congrArg _ (builderTurn_of_building hb), builderStep_bidx_toNat hb,
    entry_builderStep s.t8 entry8 hb, entry_builderStep s.t16 entry16 hb, rfl⟩, fun hb => ?_⟩
  exact congrArg _ (builderTurn_of_done hb)

theorem builderTurn_iterate_bidx {s : State} {n : Nat} (h : s.bidx.toNat + n ≤ 256) :
    (builderTurn^[n] s).bidx.toNat = s.bidx.toNat + n := by
  induction n with
  | zero => rfl
  | succ n ih =>
    have hn : (builderTurn^[n] s).bidx.toNat = s.bidx.toNat + n := ih (by omega)
    have hb : (builderTurn^[n] s).bidx.toNat < 256 := by omega
    rw [Function.iterate_succ_apply', builderTurn_of_building hb, builderStep_bidx_toNat hb, hn, Nat.add_assoc]

/-- The builder's turns that are left complete the build (R103). -/
theorem builderTurn_iterate_bidx_of_rest {s : State} (h : s.bidx.toNat ≤ 256) :
    (builderTurn^[256 - s.bidx.toNat] s).bidx = 256#9 := by
  apply BitVec.eq_of_toNat_eq
  rw [builderTurn_iterate_bidx (by omega), BitVec.toNat_ofNat]
  omega

/-- However many turns the builder takes, it writes the tables and the index only (R102). -/
theorem builderTurn_iterate_frame (s : State) (n : Nat) :
    { builderTurn^[n] s with t8 := s.t8, t16 := s.t16, bidx := s.bidx } = s := by
  induction n with
  | zero => rfl
  | succ n ih =>
    rw [Function.iterate_succ_apply']
    calc { builderTurn (builderTurn^[n] s) with t8 := s.t8, t16 := s.t16, bidx := s.bidx }
        = { ({ builderTurn (builderTurn^[n] s) with
                t8 := (builderTurn^[n] s).t8
                t16 := (builderTurn^[n] s).t16
                bidx := (builderTurn^[n] s).bidx } : State) with
            t8 := s.t8, t16 := s.t16, bidx := s.bidx } := rfl
      _ = s := by rw [builderTurn_frame, ih]

/-- Every entry from the first index on is written, in each table (R102). -/
theorem entry_builderTurn_iterate {w : Nat} {table : State → Vector (Option (BitVec w)) 256} {f : Byte → BitVec w}
    (htable : ∀ u, table (builderStep u) = writeEntry (table u) u.buildIndex (f u.buildIndex)) {s : State} {n : Nat}
    (h : s.bidx.toNat + n ≤ 256) {i : Byte} (hle : s.bidx.toNat ≤ i.toNat) (hlt : i.toNat < s.bidx.toNat + n) :
    entry (table (builderTurn^[n] s)) i = some (f i) := by
  induction n with
  | zero => omega
  | succ n ih =>
    have hn : (builderTurn^[n] s).bidx.toNat = s.bidx.toNat + n := builderTurn_iterate_bidx (by omega)
    have hb : (builderTurn^[n] s).bidx.toNat < 256 := by omega
    rw [Function.iterate_succ_apply', builderTurn_of_building hb, htable, entry_builderStep _ f hb, hn]
    split
    · rfl
    · exact ih (by omega) (by omega)

/-- The builder reads no schedule. -/
theorem builderTurn_following (s : State) (ts : List Turn) :
    builderTurn (s.following ts) = (builderTurn s).following ts := by
  by_cases hb : s.bidx.toNat < 256
  · rw [builderTurn_of_building hb, builderTurn_of_building (s := s.following ts) hb]
    rfl
  · rw [builderTurn_of_done (Nat.le_of_not_lt hb), builderTurn_of_done (s := s.following ts) (Nat.le_of_not_lt hb)]

/-- A row of builder turns at the head of the schedule. -/
theorem run_builders (n : Nat) (s : State) (ts : List Turn) :
    run n (s.following (List.replicate n .builder ++ ts)) = .next ((builderTurn^[n] s).following ts) := by
  induction n generalizing s with
  | zero => rfl
  | succ n ih =>
    have hstep : step (s.following (List.replicate (n + 1) .builder ++ ts)) =
        .next ((builderTurn s).following (List.replicate n .builder ++ ts)) :=
      congrArg _ (builderTurn_following s _)
    rw [run_succ hstep, ih, Function.iterate_succ_apply]

/-- From any index the builder's remaining turns complete both tables from there on, and change nothing else (R103). -/
theorem run_builders_to_completion {n : Nat} {s : State} (hn : s.bidx.toNat + n = 256) (ts : List Turn) :
    ∃ t, run n (s.following (List.replicate n .builder ++ ts)) = .next t ∧ t.bidx = 256#9 ∧
      (∀ i : Byte, s.bidx.toNat ≤ i.toNat →
        entry t.t8 i = some (entry8 i) ∧ entry t.t16 i = some (entry16 i)) ∧
      { t with t8 := s.t8, t16 := s.t16, bidx := s.bidx } = s.following ts := by
  refine ⟨_, run_builders n s ts, BitVec.eq_of_toNat_eq ?_, fun i hi => ⟨?_, ?_⟩, ?_⟩
  · exact (builderTurn_iterate_bidx hn.le).trans hn
  · exact entry_builderTurn_iterate (table := State.t8) builderStep_t8 hn.le hi (by omega)
  · exact entry_builderTurn_iterate (table := State.t16) builderStep_t16 hn.le hi (by omega)
  · exact congrArg (State.following · ts) (builderTurn_iterate_frame s n)

/-- Settles O39: from index 0 the builder's remaining turns are 256, and after them it has no step. -/
theorem builderCompletesIn256Steps : Obligations.BuilderCompletesIn256Steps := by
  intro s ts hb
  have h0 : s.bidx.toNat = 0 := congrArg BitVec.toNat hb
  obtain ⟨t, hrun, hbidx, hentries, hframe⟩ := run_builders_to_completion (n := 256) (by rw [h0]) ts
  have hschedule : t.schedule = ts := (congrArg State.schedule hframe :)
  refine ⟨t, hrun, hbidx, ?_, fun i => hentries i (h0 ▸ Nat.zero_le _), hframe, ?_⟩
  · rw [(statusBitsAreReadyAndErr t).1, hbidx]
    rfl
  · rw [step_following_cons, ← hschedule, following_schedule_self]
    exact congrArg _ (builderTurn_of_done (done_of_bidx hbidx))

/-! ## With an empty schedule -/

/-- While the builder has a step an empty schedule gives it the turn (R108; log 2). -/
theorem step_of_idle_building {s : State} (hs : s.schedule = []) (hb : s.bidx.toNat < 256) :
    step s = .next (builderTurn s) := by
  have hturn : nextTurn s = .builder := by simp [nextTurn, defaultTurn, hs, (building_iff s).2 hb]
  rw [step_eq, hturn, hs, List.tail_nil, ← hs, following_schedule_self]
  rfl

/-- With the builder done an empty schedule gives the command agent the turn (log 2). -/
theorem nextTurn_of_idle_done {s : State} (hs : s.schedule = []) (hb : 256 ≤ s.bidx.toNat) :
    nextTurn s = .command := by
  simp [nextTurn, defaultTurn, hs, (building_eq_false_iff s).2 hb]

theorem step_of_idle_done {s : State} (hs : s.schedule = []) (hb : 256 ≤ s.bidx.toNat) :
    step s = commandTurn s := by
  rw [step_eq, nextTurn_of_idle_done hs hb, hs, List.tail_nil, ← hs, following_schedule_self]
  rfl

/-- Settles O15: the default turn is the builder's while it has a step, and then the command agent's. -/
theorem emptyScheduleServesBuilderThenCommands : Obligations.EmptyScheduleServesBuilderThenCommands := by
  intro s hs
  constructor
  · intro hb
    rw [step_of_idle_building hs hb, builderTurn_of_building hb]
  · intro hb c cs i hstream hd
    rw [step_of_idle_done hs hb, commandTurn_cons hstream, commandStep_ok hd]

/-- An empty schedule gives the builder one turn after another until it is done (R103; log 2). -/
theorem run_of_idle_building {n : Nat} {s : State} (hs : s.schedule = []) (hn : s.bidx.toNat + n ≤ 256) :
    run n s = .next (builderTurn^[n] s) := by
  induction n generalizing s with
  | zero => rfl
  | succ n ih =>
    have hb : s.bidx.toNat < 256 := by omega
    have hbidx : (builderTurn s).bidx.toNat = s.bidx.toNat + 1 := builderTurn_iterate_bidx (n := 1) hb
    rw [run_succ (step_of_idle_building hs hb), ih ((builderTurn_schedule s).trans hs) (by omega),
      Function.iterate_succ_apply]

/-- From the invariant every turn of the schedule is taken, whatever it is. -/
theorem State.Inv.run_schedule {ts : List Turn} {s : State} (h : s.Inv) (hs : s.schedule = ts) :
    ∃ t, run ts.length s = .next t ∧ t.Inv ∧ t.schedule = [] := by
  induction ts generalizing s with
  | nil => exact ⟨s, rfl, h, hs⟩
  | cons x xs ih =>
    obtain ⟨u, hstep, hu⟩ := everyStepIsSafe s h
    obtain ⟨t, hrun, ht⟩ := ih hu (by rw [step_schedule hstep, hs, List.tail_cons])
    exact ⟨t, by rw [List.length_cons, run_succ hstep, hrun], ht⟩

/-- Settles O40: once the schedule is used up the builder has the turns until it is done. -/
theorem tablesBecomeReadyInBoundedTime : Obligations.TablesBecomeReadyInBoundedTime := by
  intro s hinv
  obtain ⟨t, hrun, ht, hsch⟩ := hinv.run_schedule rfl
  have hle : t.bidx.toNat ≤ 256 := ht.bidx_le
  refine ⟨s.schedule.length + (256 - t.bidx.toNat), builderTurn^[256 - t.bidx.toNat] t, by omega, ?_,
    builderTurn_iterate_bidx_of_rest hle⟩
  rw [run_add _ _ hrun, run_of_idle_building hsch (by omega)]

/-! ## Reading a table -/

theorem whenTablesReady_whenRoom_of_hold {s : State} (h : s.bidx.toNat < 256 ∨ s.rspq.length = s.rspDepth)
    (r : Result) : whenTablesReady s (whenRoom s r) = .next s := by
  by_cases hb : s.bidx.toNat < 256
  · exact whenTablesReady_of_building hb _
  · rw [whenTablesReady_of_done (Nat.le_of_not_lt hb), whenRoom_of_full (h.resolve_left hb)]

theorem exec_treadC8_of_entry {s : State} {i v : Byte} (ready : 256 ≤ s.bidx.toNat)
    (room : s.rspq.length ≠ s.rspDepth) (read : entry s.t8 i = some v) :
    exec (.treadC8 i) s = .next (advance (respond (zext16 v) s)) := by
  change execTreadC8 i s = _
  rw [execTreadC8, whenTablesReady_of_done ready, whenRoom_of_room room, withEntry_of_some read, complete]

theorem exec_treadC16_of_entry {s : State} {i : Byte} {v : Word} (ready : 256 ≤ s.bidx.toNat)
    (room : s.rspq.length ≠ s.rspDepth) (read : entry s.t16 i = some v) :
    exec (.treadC16 i) s = .next (advance (respond v s)) := by
  change execTreadC16 i s = _
  rw [execTreadC16, whenTablesReady_of_done ready, whenRoom_of_room room, withEntry_of_some read, complete]

/-- Settles O29: the words are TREAD's own, and TREAD is held by either hazard or answers the entry. -/
theorem treadAnswersTheEntry : Obligations.TreadAnswersTheEntry := by
  intro s i
  have hword8 : encode (.treadC8 i) = 0x4000#16 ||| i.setWidth 16 := encodeFields_eq_or 0x4#4 0b00#2 i
  have hword16 : encode (.treadC16 i) = 0x4400#16 ||| i.setWidth 16 := encodeFields_eq_or 0x4#4 0b01#2 i
  refine ⟨hword8 ▸ decode_encode rfl, hword16 ▸ decode_encode rfl, fun hold => ⟨?_, ?_⟩, fun ready room => ⟨?_, ?_⟩⟩
  · exact whenTablesReady_whenRoom_of_hold hold _
  · exact whenTablesReady_whenRoom_of_hold hold _
  · exact fun v => exec_treadC8_of_entry ready room
  · exact fun v => exec_treadC16_of_entry ready room

/-! ## A presented stream, served to its end -/

/-- On finished tables a well-formed command that has room for its answer is performed (R240, R241). -/
theorem State.Inv.exec_performs {s : State} {i : Instr} (h : s.Inv) (hw : i.wellFormed = true)
    (ready : 256 ≤ s.bidx.toNat) (room : responds i = true → s.rspq.length ≠ s.rspDepth) :
    ∃ u, Effect s i u ∧ exec i s = .next (advance u) := by
  cases i with
  | nop => exact ⟨_, .nop, rfl⟩
  | initC8 => exact ⟨_, .initC8, rfl⟩
  | initC16 => exact ⟨_, .initC16, rfl⟩
  | initX8 => exact ⟨_, .initX8, rfl⟩
  | feedC8 b =>
    have read := h.entry8_of_done ready (s.index8 b)
    exact ⟨_, .feedC8 b _ ready read, exec_feedC8_of_entry ready read⟩
  | feedC16 b =>
    have read := h.entry16_of_done ready (s.index16 b)
    exact ⟨_, .feedC16 b _ ready read, exec_feedC16_of_entry ready read⟩
  | feedX8 b => exact ⟨_, .feedX8 b, rfl⟩
  | readC8 => exact ⟨_, .readC8 (room rfl), respondWith_of_room (room rfl)⟩
  | readC16 => exact ⟨_, .readC16 (room rfl), respondWith_of_room (room rfl)⟩
  | readX8 => exact ⟨_, .readX8 (room rfl), respondWith_of_room (room rfl)⟩
  | treadC8 k =>
    have read := h.entry8_of_done ready k
    exact ⟨_, .treadC8 k _ ready (room rfl) read, exec_treadC8_of_entry ready (room rfl) read⟩
  | treadC16 k =>
    have read := h.entry16_of_done ready k
    exact ⟨_, .treadC16 k _ ready (room rfl) read, exec_treadC16_of_entry ready (room rfl) read⟩
  | rreg n =>
    obtain ⟨v, read⟩ := register_of_legal s (of_decide_eq_true hw)
    refine ⟨_, .rreg n v (room rfl) read, ?_⟩
    change execRreg n s = _
    rw [execRreg, read]
    exact respondWith_of_room (room rfl)

/-- The words in the queue and those that the stream is yet to answer. -/
def State.answersDue (s : State) : Nat := s.rspq.length + s.stream.countP wordResponds

theorem Effect.rspq_length {s u : State} {i : Instr} (h : Effect s i u) (hw : i.wellFormed = true) :
    u.rspq.length = s.rspq.length + if responds i then 1 else 0 := by
  cases hr : responds i with
  | false => simp [h.rspq_of_not_responds hr]
  | true =>
    obtain ⟨v, rfl⟩ := h.eq_respond hw hr
    simp

/-- What a block with nothing else to do needs to serve its stream to the end: finished tables, and room for every
answer. -/
structure State.Serving (s : State) : Prop where
  inv : s.Inv
  idle : s.schedule = []
  ready : s.bidx = 256#9
  fixed : ∀ c ∈ s.stream, fixedAnswer c = true
  room : s.answersDue ≤ s.rspDepth

theorem wordResponds_of_decode {c : Word} {i : Instr} (h : decode c = .ok i) : wordResponds c = responds i := by
  rw [wordResponds, decode_ok_iff.1 h]

theorem wordResponds_of_illegal {c : Word} (h : decode? c = none) : wordResponds c = false := by
  rw [wordResponds, h]

/-- A block serving its stream takes the head off, and has as many answers to give as before. -/
theorem State.Serving.step_takes_head {s : State} {c : Word} {cs : List Word} (h : s.Serving)
    (hs : s.stream = c :: cs) :
    ∃ t, step s = .next t ∧ t.stream = cs ∧ t.bidx = s.bidx ∧ t.rspDepth = s.rspDepth ∧
      t.answersDue = s.answersDue := by
  have hdone : 256 ≤ s.bidx.toNat := done_of_bidx h.ready
  have hdue : s.answersDue = s.rspq.length + (cs.countP wordResponds + if wordResponds c then 1 else 0) := by
    rw [State.answersDue, hs, List.countP_cons]
  rw [step_of_idle_done h.idle hdone, commandTurn_cons hs]
  cases hd : decode? c with
  | none =>
    refine ⟨_, commandStep_illegal hd s, by simp [hs], rfl, rfl, ?_⟩
    rw [hdue, wordResponds_of_illegal hd]
    simp [State.answersDue, hs]
  | some i =>
    have hok := decode_ok_iff.2 hd
    have hroom : responds i = true → s.rspq.length ≠ s.rspDepth := by
      intro hr
      have := h.room
      rw [hdue, wordResponds_of_decode hok, if_pos hr] at this
      omega
    obtain ⟨u, hu, hexec⟩ := h.inv.exec_performs (wellFormed_of_decode hok) hdone hroom
    obtain ⟨-, -, hbidx, hstream, -, -, hdepth⟩ := hu.frame
    refine ⟨advance u, by rw [commandStep_ok hok, hexec], by simp [hstream, hs], hbidx, hdepth, ?_⟩
    rw [hdue, wordResponds_of_decode hok, State.answersDue, advance_rspq, advance_stream, hstream, hs, List.tail_cons,
      hu.rspq_length (wellFormed_of_decode hok)]
    omega

/-- Serving the head keeps the block serving, and what its stream comes to. -/
theorem State.Serving.step_next {s : State} {c : Word} {cs : List Word} (h : s.Serving) (hs : s.stream = c :: cs) :
    ∃ t, step s = .next t ∧ t.Serving ∧ t.stream = cs ∧ t.outlook = s.outlook := by
  obtain ⟨t, hstep, hstream, hbidx, hdepth, hdue⟩ := h.step_takes_head hs
  have hquiet : (nextTurn s).quiet = true := by
    rw [nextTurn_of_idle_done h.idle (done_of_bidx h.ready)]
    rfl
  refine ⟨t, hstep, ?_, hstream, outlookIsKeptByEveryQuietStep s t h.inv h.fixed hquiet hstep⟩
  exact {
    inv := h.inv.of_step hstep
    idle := by rw [step_schedule hstep, h.idle, List.tail_nil]
    ready := hbidx.trans h.ready
    fixed := fun d hd => h.fixed d (step_stream_subset hstep hquiet hd)
    room := by rw [hdue, hdepth]; exact h.room }

/-- One step a command serves the stream to its end. -/
theorem State.Serving.run_stream {cs : List Word} {s : State} (h : s.Serving) (hs : s.stream = cs) :
    ∃ t, run cs.length s = .next t ∧ t.stream = [] ∧ t.bidx = 256#9 ∧ t.view = s.outlook := by
  induction cs generalizing s with
  | nil => exact ⟨s, rfl, hs, h.ready, (outlook_of_stream_nil hs).symm⟩
  | cons c cs ih =>
    obtain ⟨u, hstep, hu, hustream, houtlook⟩ := h.step_next hs
    obtain ⟨t, hrun, hstream, hbidx, hview⟩ := ih hu hustream
    exact ⟨t, by rw [List.length_cons, run_succ hstep, hrun], hstream, hbidx, by rw [hview, houtlook]⟩

/-- Once the builder, which leaves all but the tables and the index alone, has taken its turns, the block is serving its
stream. -/
theorem State.Inv.serving_after_build {s : State} (h : s.Inv) (idle : s.schedule = [])
    (fixed : ∀ c ∈ s.stream, fixedAnswer c = true) (room : s.answersDue ≤ s.rspDepth) :
    (builderTurn^[256 - s.bidx.toNat] s).Serving where
  inv := Function.Iterate.rec State.Inv h (fun _ => inv_builderTurn) _
  idle := (congrArg State.schedule (builderTurn_iterate_frame s _) :).trans idle
  ready := builderTurn_iterate_bidx_of_rest h.bidx_le
  fixed := (congrArg State.stream (builderTurn_iterate_frame s _) :).symm ▸ fixed
  room := (congrArg (fun u => u.answersDue ≤ u.rspDepth) (builderTurn_iterate_frame s _) :).symm ▸ room

/-- Settles O54: the builder takes its remaining turns, and then the block serves the stream. -/
theorem presentedStreamIsUsedUp : Obligations.PresentedStreamIsUsedUp := by
  intro s hinv hsch hfixed hroom
  have hbuild : run (256 - s.bidx.toNat) s = .next (builderTurn^[256 - s.bidx.toNat] s) :=
    run_of_idle_building hsch (Nat.le_of_eq (Nat.add_sub_of_le hinv.bidx_le))
  obtain ⟨hstream, houtlook⟩ : (builderTurn^[256 - s.bidx.toNat] s).stream = s.stream ∧
      (builderTurn^[256 - s.bidx.toNat] s).outlook = s.outlook :=
    ⟨(congrArg State.stream (builderTurn_iterate_frame s _) :),
      (congrArg State.outlook (builderTurn_iterate_frame s _) :)⟩
  obtain ⟨t, hrun, ht⟩ := (hinv.serving_after_build hsch hfixed hroom).run_stream hstream
  exact ⟨t, (run_add _ _ hbuild).trans hrun, houtlook ▸ ht⟩

end Sys2Proof.Machine

/-! PROOFS. The engines' own commands: INIT's seeds, FEED.C8's table entry and READ's answer (R121 to R123, R141, R143,
R161, R163). -/

namespace Sys2Proof.Machine

/-- Settles O22: the words are INIT's own, and INIT, which nothing holds, is by definition its seed loaded and the
advance. -/
theorem initLoadsTheSeed : Obligations.InitLoadsTheSeed :=
  ⟨decode_encode (i := .initC8) rfl, decode_encode (i := .initC16) rfl, decode_encode (i := .initX8) rfl,
    fun _ => ⟨rfl, rfl, rfl⟩⟩

/-- Settles O23: the word is FEED.C8's own, and FEED.C8 is held during the build or takes the entry read. -/
theorem feedC8TakesTheTableEntry : Obligations.FeedC8TakesTheTableEntry := by
  intro s b
  have hword : encode (.feedC8 b) = 0x2000#16 ||| b.setWidth 16 := encode_feedOf_eq_or b .c8
  refine ⟨hword ▸ decode_encode rfl, fun building => ?_, fun v ready read => ?_⟩
  · exact whenTablesReady_of_building building _
  · exact exec_feedC8_of_entry ready read

/-- Settles O28: the words are READ's own, and READ is a response, which a full queue holds. -/
theorem readDeliversTheAccumulator : Obligations.ReadDeliversTheAccumulator := by
  refine ⟨decode_encode (i := .readC8) rfl, decode_encode (i := .readC16) rfl, decode_encode (i := .readX8) rfl,
    fun s => ⟨fun full => ?_, fun room => ?_⟩⟩
  · exact ⟨respondWith_of_full full, respondWith_of_full full, respondWith_of_full full⟩
  · exact ⟨respondWith_of_room room, respondWith_of_room room, respondWith_of_room room⟩

end Sys2Proof.Machine

/-! PROOFS. Engine C16's FEED: the table entry and the shift (R142). -/

namespace Sys2Proof.Machine

/-- Settles O25: the word is FEED.C16's own, and FEED.C16 is held during the build or XORs the entry read into the shifted
accumulator. -/
theorem feedC16ShiftsAndXorsTheEntry : Obligations.FeedC16ShiftsAndXorsTheEntry := by
  intro s b
  have hword : encode (.feedC16 b) = 0x2400#16 ||| b.setWidth 16 := encode_feedOf_eq_or b .c16
  refine ⟨hword ▸ decode_encode rfl, fun building => ?_, fun v ready read => ?_⟩
  · exact whenTablesReady_of_building building _
  · exact exec_feedC16_of_entry ready read

end Sys2Proof.Machine

/-! PROOFS. Engine X8's FEED: the byte XORed in, which feeding it again takes out (R162). -/

namespace Sys2Proof.Machine

/-- Neither `bidx` nor the queue is asked: FEED.X8 is performed in every state (R162). -/
theorem exec_feedX8 (s : State) (b : Byte) :
    exec (.feedX8 b) s = .next { s with accx := s.accx ^^^ b, stream := s.stream.tail } := rfl

/-- Settles O27: the word is FEED.X8's own, and XOR with the same byte undoes itself. -/
theorem feedX8XorsTheByte : Obligations.FeedX8XorsTheByte := by
  intro s b
  have hword : encode (.feedX8 b) = 0x2800#16 ||| b.setWidth 16 := encode_feedOf_eq_or b .x8
  have hundo : (s.accx ^^^ b) ^^^ b = s.accx := by rw [BitVec.xor_assoc, BitVec.xor_self, BitVec.xor_zero]
  refine ⟨hword ▸ decode_encode rfl, exec_feedX8 s b, ?_⟩
  rw [exec_feedX8, hundo]

end Sys2Proof.Machine

/-! PROOFS. The control instructions: NOP's advance and RREG's nine registers (R182, R184). -/

namespace Sys2Proof.Machine

/-- Settles O21: NOP is by definition the advance alone. -/
theorem nopOnlyAdvances : Obligations.NopOnlyAdvances :=
  ⟨decode_encode (i := .nop) rfl, fun _ => rfl⟩

/-- R28, R184: STATUS read as a number. -/
theorem status_toNat (s : State) : s.status.toNat = 2 * s.err.toNat + if s.bidx = 256#9 then 1 else 0 := by
  rw [State.status, tablesReady_eq]
  simp only [← beq_iff_eq (a := s.bidx)]
  cases s.err <;> cases s.bidx == 256#9 <;> rfl

theorem exec_rreg_of_register {s : State} {n : Byte} {v : Word} (read : s.register n = some v) :
    exec (.rreg n) s = respondWith v s := by
  change execRreg n s = _
  rw [execRreg, read]

/-- Settles O30: a legal number reads a register, its value is responded, and each number names its own. -/
theorem rregAnswersTheRegister : Obligations.RregAnswersTheRegister := by
  intro s n hn
  have hword : encode (.rreg n) = 0x5000#16 ||| n.setWidth 16 := encodeFields_eq_or 0x5#4 0b00#2 n
  obtain ⟨v, read⟩ := register_of_legal s hn
  have hvalue {m : Byte} {w : Word} (hw : s.register m = some w) (h : n = m) : v = w :=
    Option.some.inj (read.symm.trans (h ▸ hw))
  have hstatus (h : n = 0x00#8) : v.toNat = 2 * s.err.toNat + if s.bidx = 256#9 then 1 else 0 := by
    rw [hvalue rfl h, status_toNat]
  have hbidx (h : n = 0x01#8) : v.toNat = s.bidx.toNat := by
    rw [hvalue rfl h, BitVec.toNat_setWidth_of_le (by decide)]
  rw [exec_rreg_of_register read]
  refine ⟨hword ▸ decode_encode (decide_eq_true hn), respondWith_of_full, fun room => ⟨v, respondWith_of_room room, ?_⟩⟩
  exact ⟨hstatus, hbidx, hvalue rfl, hvalue rfl, hvalue rfl, hvalue rfl, hvalue rfl, hvalue rfl, hvalue rfl⟩

end Sys2Proof.Machine

/-! PROOFS. INIT and FEED as updates of one engine's accumulator: commands of different engines commute, and each reads
its own accumulator only (R183). -/

namespace Sys2Proof.Machine

/-! ## Updating one engine's accumulator -/

/-- What the engine's accumulator holds (R21). -/
def AccValue : Engine → Type
  | .c8 => Byte
  | .c16 => Word
  | .x8 => Byte

/-- A change of the engine's accumulator that looks at nothing else but that accumulator. -/
abbrev Update (e : Engine) : Type := AccValue e → AccValue e

/-- s with f applied to the engine's accumulator. -/
def State.modifyAcc (s : State) : (e : Engine) → Update e → State
  | .c8, f => { s with acc8 := f s.acc8 }
  | .c16, f => { s with acc16 := f s.acc16 }
  | .x8, f => { s with accx := f s.accx }

theorem advance_modifyAcc_comm (s : State) {d e : Engine} (hne : d ≠ e) (f : Update d) (g : Update e) :
    advance ((advance (s.modifyAcc d f)).modifyAcc e g) = advance ((advance (s.modifyAcc e g)).modifyAcc d f) := by
  cases d <;> cases e
  case c8.c8 | c16.c16 | x8.x8 => exact absurd rfl hne
  all_goals rfl

/-- The updated accumulator is a function of the accumulator alone. -/
theorem accumulator_modifyAcc_congr {s t : State} {e : Engine} (h : s.accumulator e = t.accumulator e)
    (f : Update e) : (s.modifyAcc e f).accumulator e = (t.modifyAcc e f).accumulator e := by
  cases e with
  | c8 => exact congrArg (fun a => zext16 (f a)) (zext16_injective h)
  | c16 => exact congrArg f h
  | x8 => exact congrArg (fun a => zext16 (f a)) (zext16_injective h)

/-- The tables that i reads are still being built (R240). -/
def State.waits (s : State) (i : Instr) : Bool := readsTable i && s.building

/-- Instruction i served as an update of e's accumulator: held, or performed (R238). -/
def State.serve (s : State) (i : Instr) (e : Engine) (f : Update e) : State :=
  if s.waits i then s else advance (s.modifyAcc e f)

theorem waits_congr {s t : State} (h : s.bidx = t.bidx) (i : Instr) : s.waits i = t.waits i := by
  rw [State.waits, State.waits, State.building, State.building, h]

theorem serve_of_waits {s : State} {i : Instr} (h : s.waits i = true) (e : Engine) (f : Update e) :
    s.serve i e f = s := if_pos h

theorem serve_of_not_waits {s : State} {i : Instr} (h : ¬ s.waits i = true) (e : Engine) (f : Update e) :
    s.serve i e f = advance (s.modifyAcc e f) := if_neg h

theorem serve_frame (s : State) (i : Instr) (e : Engine) (f : Update e) :
    (s.serve i e f).t8 = s.t8 ∧ (s.serve i e f).t16 = s.t16 ∧ (s.serve i e f).bidx = s.bidx := by
  by_cases hi : s.waits i = true
  · rw [serve_of_waits hi]
    exact ⟨rfl, rfl, rfl⟩
  · rw [serve_of_not_waits hi]
    cases e <;> exact ⟨rfl, rfl, rfl⟩

theorem waits_serve (s : State) (i j : Instr) (e : Engine) (f : Update e) : (s.serve i e f).waits j = s.waits j := by
  obtain ⟨-, -, hb⟩ := serve_frame s i e f
  exact waits_congr hb j

/-- No update changes whether a command is held; and updates of different accumulators commute. -/
theorem serve_comm (s : State) (i j : Instr) {d e : Engine} (hne : d ≠ e) (f : Update d) (g : Update e) :
    (s.serve i d f).serve j e g = (s.serve j e g).serve i d f := by
  have hi' : (s.serve j e g).waits i = s.waits i := waits_serve s j i e g
  have hj' : (s.serve i d f).waits j = s.waits j := waits_serve s i j d f
  by_cases hi : s.waits i = true
  · rw [serve_of_waits hi, serve_of_waits (hi'.trans hi)]
  by_cases hj : s.waits j = true
  · rw [serve_of_waits hj, serve_of_waits (hj'.trans hj)]
  · have hni : ¬ (s.serve j e g).waits i = true := by rwa [hi']
    have hnj : ¬ (s.serve i d f).waits j = true := by rwa [hj']
    rw [serve_of_not_waits hnj, serve_of_not_waits hni, serve_of_not_waits hi, serve_of_not_waits hj,
      advance_modifyAcc_comm s hne]

theorem accumulator_serve_congr {s t : State} {e : Engine} (h : s.accumulator e = t.accumulator e)
    (hb : s.bidx = t.bidx) (i : Instr) (f : Update e) :
    (s.serve i e f).accumulator e = (t.serve i e f).accumulator e := by
  have hwaits : s.waits i = t.waits i := waits_congr hb i
  by_cases hi : s.waits i = true
  · rw [serve_of_waits hi, serve_of_waits (hwaits ▸ hi), h]
  · rw [serve_of_not_waits hi, serve_of_not_waits (hwaits ▸ hi), accumulator_advance, accumulator_advance,
      accumulator_modifyAcc_congr h]

/-! ## INIT and FEED are such updates -/

/-- Everything a FEED over a table can end in when it goes on. Any `d` will do: an entry with no value is a fault (R25). -/
theorem feed_next {w : Nat} {e : Engine} {t : Vector (Option (BitVec w)) 256} {k : Byte} {use : BitVec w → State}
    {s s' : State} (d : BitVec w)
    (h : whenTablesReady s (withEntry e t k fun v => complete (use v)) = .next s') :
    s' = if s.building then s else advance (use ((entry t k).getD d)) := by
  by_cases hb : s.bidx.toNat < 256
  · rw [whenTablesReady_of_building hb] at h
    rw [if_pos ((building_iff s).2 hb)]
    exact (Host.Outcome.next.inj h).symm
  · rw [whenTablesReady_of_done (Nat.le_of_not_lt hb)] at h
    rw [if_neg (mt (building_iff s).1 hb)]
    obtain ⟨v, hv, h⟩ := withEntry_next h
    rw [hv, Option.getD_some]
    exact complete_next.1 h

/-- R183: an INIT or FEED that goes on updates its engine's accumulator by a function that the tables fix. -/
theorem exists_eq_serve {i : Instr} {e : Engine} (hi : writesEngine i = some e) (t8 : Vector (Option Byte) 256)
    (t16 : Vector (Option Word) 256) :
    ∃ f : Update e, ∀ s s' : State, s.t8 = t8 → s.t16 = t16 → exec i s = .next s' → s' = s.serve i e f := by
  cases i <;> cases hi
  case initC8 => exact ⟨fun _ => Config.seed8, fun _ _ _ _ h => complete_next.1 h⟩
  case initC16 => exact ⟨fun _ => Config.seed16, fun _ _ _ _ h => complete_next.1 h⟩
  case initX8 => exact ⟨fun _ => Config.seedX, fun _ _ _ _ h => complete_next.1 h⟩
  case feedX8 b => exact ⟨fun acc => foldStepX acc b, fun _ _ _ _ h => complete_next.1 h⟩
  case feedC8 b =>
    refine ⟨fun (acc : Byte) => (entry t8 (acc ^^^ b)).getD acc, fun s s' h8 _ h => ?_⟩
    subst h8
    exact feed_next s.acc8 h
  case feedC16 b =>
    refine ⟨fun (acc : Word) => (acc >>> 8) ^^^ (entry t16 (lowByte acc ^^^ b)).getD acc, fun s s' _ h16 h => ?_⟩
    subst h16
    exact feed_next s.acc16 h

theorem wellFormed_of_writesEngine {i : Instr} {e : Engine} (hi : writesEngine i = some e) : i.wellFormed = true := by
  cases i with
  | rreg n => cases hi
  | _ => rfl

/-- Settles O49: all four commands go on from the invariant, as updates of two different accumulators. -/
theorem differentEnginesCommute : Obligations.DifferentEnginesCommute := by
  intro s i j d e hinv hi hj hne
  obtain ⟨f, hf⟩ := exists_eq_serve hi s.t8 s.t16
  obtain ⟨g, hg⟩ := exists_eq_serve hj s.t8 s.t16
  have hwi := wellFormed_of_writesEngine hi
  have hwj := wellFormed_of_writesEngine hj
  obtain ⟨a, ha, hainv⟩ := safe_exec hinv hwi
  obtain ⟨b, hb, hbinv⟩ := safe_exec hinv hwj
  obtain ⟨t, ht, -⟩ := safe_exec hainv hwj
  obtain ⟨u, hu, -⟩ := safe_exec hbinv hwi
  obtain rfl := hf s a rfl rfl ha
  obtain rfl := hg s b rfl rfl hb
  obtain ⟨ha8, ha16, -⟩ := serve_frame s i d f
  obtain ⟨hb8, hb16, -⟩ := serve_frame s j e g
  have htu : t = u := by rw [hg _ t ha8 ha16 ht, hf _ u hb8 hb16 hu, serve_comm s i j hne]
  exact ⟨_, _, t, ha, ht, hb, htu ▸ hu⟩

/-- Settles O50: over the same tables both runs apply the same update to the same accumulator, or both hold. -/
theorem engineReadsOnlyItsOwnAccumulator : Obligations.EngineReadsOnlyItsOwnAccumulator := by
  intro s t s' t' i e hi hacc h8 h16 hb hs ht
  obtain ⟨f, hf⟩ := exists_eq_serve hi t.t8 t.t16
  rw [hf s s' h8 h16 hs, hf t t' rfl rfl ht]
  exact accumulator_serve_congr hacc hb i f

end Sys2Proof.Machine

/-! PROOFS. The checksums as folds (R180). -/

namespace Sys2Proof.Machine

theorem fold_concat {α : Type} (seed : α) (f : α → Byte → α) (bytes : List Byte) (b : Byte) :
    fold seed f (bytes ++ [b]) = f (fold seed f bytes) b := List.foldl_concat ..

/-- Settles O51: each checksum is the fold by its own rule, so its last byte is the rule's last step. -/
theorem checksumsAreFoldsWithTheirOwnSeedAndStep : Obligations.ChecksumsAreFoldsWithTheirOwnSeedAndStep := by
  refine ⟨fun seed f bytes b => ⟨rfl, fold_concat seed f bytes b⟩, rfl, rfl, rfl, fun bytes b => ⟨?_, ?_, ?_⟩⟩
  · exact fold_concat Config.seed8 foldStep8 bytes b
  · rw [← lowByte_eq_setWidth]
    exact fold_concat Config.seed16 foldStep16 bytes b
  · exact fold_concat Config.seedX foldStepX bytes b

end Sys2Proof.Machine

/-! PROOFS. The command agent on an illegal word, the turns of agents without a step, and commands that nothing holds
(R102, R200, R202, R213, R236, R238). -/

namespace Sys2Proof.Machine

/-- Settles O34: on finished tables and with room the command is performed, so the answer that keeps the invariant is the
effect with the stream advanced. -/
theorem everyCommandCompletesWhenReady : Obligations.EveryCommandCompletesWhenReady := by
  intro s i hinv hw hready hroom
  obtain ⟨u, hu, hexec⟩ := hinv.exec_performs hw (done_of_bidx hready) fun _ => hroom.ne
  obtain ⟨t, ht, htinv⟩ := safe_exec hinv hw
  obtain rfl : advance u = t := Host.Outcome.next.inj (hexec.symm.trans ht)
  obtain ⟨-, -, -, hstream, -⟩ := hu.frame
  exact ⟨advance u, hexec, congrArg List.tail hstream, htinv⟩

/-- Settles O17: an undecodable head is recorded before any hold is asked for. -/
theorem illegalWordIsRecordedAndDropped : Obligations.IllegalWordIsRecordedAndDropped := by
  intro s c cs hs hc
  have hturn : takeTurn .command s = .next (advance (recordIllegal c s)) :=
    (commandTurn_cons hs).trans (commandStep_illegal hc s)
  rw [hturn, advance, recordIllegal, hs, List.tail_cons]

theorem hostDrain_nil {s : State} (h : s.rspq = []) : hostDrain s = s := by
  rw [hostDrain, h]

/-- Settles O20: no word to take, no entry to write, no response to drain; and the idle block's turn is the command
agent's. -/
theorem turnsWithoutAStepChangeNothing : Obligations.TurnsWithoutAStepChangeNothing := by
  intro s
  refine ⟨commandTurn_nil, fun hb => ?_, fun hq => ?_, fun hb hs hsch => ?_⟩
  · exact congrArg _ (builderTurn_of_done hb)
  · exact congrArg _ (hostDrain_nil hq)
  · rw [step_of_idle_done hsch hb, commandTurn_nil hs]

end Sys2Proof.Machine

/-! PROOFS. The host's reset, its other two actions, the turn of a step, and the two hazards that hold a command (R230, R231,
R235, R236, R238 to R241, R243). -/

namespace Sys2Proof.Machine

/-! ## Reset -/

/-- Settles O2: every piece of the block's state takes its value in State.reset, whose values O1 gives. -/
theorem hostResetSetsEveryPieceOfState : Obligations.HostResetSetsEveryPieceOfState := by
  intro s
  obtain ⟨h8, h16, hx, htables, hbidx, herr, herrcmd, hrspq, -, -⟩ := resetLeavesTheTabledValues
  exact ⟨hostReset s, rfl, h8, h16, hx, htables, hbidx, herr, herrcmd, hrspq, fun _ => rfl⟩

/-- A value in a table built by a rule is the rule's, however far the build has come. -/
theorem value_of_built {w n : Nat} {t : Vector (Option (BitVec w)) 256} {f : Byte → BitVec w}
    (ht : ∀ i : Byte, entry t i = if i.toNat < n then some (f i) else none) {i : Byte} {v : BitVec w}
    (hv : entry t i = some v) : f i = v := by
  rw [ht, Option.ite_none_right_eq_some] at hv
  exact Option.some.inj hv.2

/-- Settles O4: the values before the reset were E8's and E16's, and the builder, restarted at index 0, writes E8 and E16 at
every index. -/
theorem resetRebuildsTheSameTables : Obligations.ResetRebuildsTheSameTables := by
  intro s ts hinv
  have hreset : step (s.following (.reset :: List.replicate 256 .builder ++ ts)) =
      .next ((hostReset s).following (List.replicate 256 .builder ++ ts)) := rfl
  obtain ⟨t, hrun, hbidx, hentries, hframe⟩ := run_builders_to_completion (n := 256) (s := hostReset s) rfl ts
  refine ⟨⟨_, hreset, rfl⟩, t, (run_succ hreset).trans hrun, hbidx, (congrArg State.schedule hframe :),
    fun i v hv => ?_, fun i v hv => ?_⟩
  · obtain ⟨h8, -⟩ := hentries i (Nat.zero_le _)
    rw [h8, value_of_built hinv.t8_built hv]
  · obtain ⟨-, h16⟩ := hentries i (Nat.zero_le _)
    rw [h16, value_of_built hinv.t16_built hv]

/-! ## The host's other actions -/

/-- Settles O18: presenting is by definition the word put at the tail. -/
theorem presentedWordGoesToTheTail : Obligations.PresentedWordGoesToTheTail := fun _ _ => rfl

theorem hostDrain_cons {s : State} {v : Word} {q : List Word} (h : s.rspq = v :: q) :
    hostDrain s = { s with rspq := q, received := s.received ++ [v] } := by
  rw [hostDrain, h]

/-- Settles O19: there is a word to take. -/
theorem drainTakesTheHead : Obligations.DrainTakesTheHead :=
  fun _ _ _ hq => congrArg Host.Outcome.next (hostDrain_cons hq)

/-! ## The turn of a step -/

/-- Settles O13: the head of the schedule is the next turn, and what is left of it is its tail. -/
theorem stepIsTheNextAgentsTurn : Obligations.StepIsTheNextAgentsTurn := step_following_cons

/-- Settles O14: the command agent decodes the head before anything else. -/
theorem commandTurnRunsTheDecodedInstruction : Obligations.CommandTurnRunsTheDecodedInstruction := by
  intro s ts c cs i hs hd
  calc step (s.following (.command :: ts))
      = commandTurn (s.following ts) := step_following_cons s .command ts
    _ = commandStep c (s.following ts) := commandTurn_cons hs
    _ = exec i (s.following ts) := commandStep_ok hd _

/-! ## What holds a command

A step that changes nothing is a hold, for a command that is performed takes itself off the stream. -/

/-- Performing a command takes it off the stream, so that something has changed. -/
theorem complete_ne_self {s u : State} (hs : s.stream ≠ []) (hu : u.stream = s.stream) : complete u ≠ .next s := by
  intro h
  have hlen := congrArg (List.length ∘ State.stream) (complete_next.1 h)
  have hpos := List.length_pos_of_ne_nil hs
  simp only [Function.comp_apply, advance_stream, hu, List.length_tail] at hlen
  omega

theorem withEntry_ne_self {w : Nat} {e : Engine} {t : Vector (Option (BitVec w)) 256} {i : Byte}
    {use : BitVec w → Result} {s : State} (huse : ∀ v, use v ≠ .next s) : withEntry e t i use ≠ .next s := by
  intro h
  obtain ⟨v, -, hv⟩ := withEntry_next h
  exact huse v hv

theorem whenTablesReady_eq_self_iff {s : State} {r : Result} (hr : r ≠ .next s) :
    whenTablesReady s r = .next s ↔ s.bidx.toNat < 256 := by
  refine ⟨fun h => Nat.lt_of_not_le fun hb => hr ?_, fun hb => whenTablesReady_of_building hb r⟩
  rwa [whenTablesReady_of_done hb] at h

theorem whenRoom_eq_self_iff {s : State} {r : Result} (hr : r ≠ .next s) :
    whenRoom s r = .next s ↔ s.rspq.length = s.rspDepth := by
  refine ⟨fun h => Decidable.of_not_not fun hq => hr ?_, fun hq => whenRoom_of_full hq r⟩
  rwa [whenRoom_of_room hq] at h

theorem whenTablesReady_whenRoom_eq_self_iff {s : State} {r : Result} (hr : r ≠ .next s) :
    whenTablesReady s (whenRoom s r) = .next s ↔ s.bidx.toNat < 256 ∨ s.rspq.length = s.rspDepth := by
  refine ⟨fun h => or_iff_not_imp_left.2 fun hb => ?_, fun hold => whenTablesReady_whenRoom_of_hold hold r⟩
  rw [whenTablesReady_of_done (Nat.le_of_not_lt hb)] at h
  exact (whenRoom_eq_self_iff hr).1 h

theorem respondWith_eq_self_iff {s : State} (hs : s.stream ≠ []) (v : Word) :
    respondWith v s = .next s ↔ s.rspq.length = s.rspDepth := whenRoom_eq_self_iff (complete_ne_self hs rfl)

/-- R238, R240, R241, in every state: a well-formed command at the head changes nothing exactly on one of its two hazards. -/
theorem exec_eq_self_iff {s : State} {i : Instr} (hw : i.wellFormed = true) (hs : s.stream ≠ []) :
    exec i s = .next s ↔
      (readsTable i = true ∧ s.bidx.toNat < 256) ∨ (responds i = true ∧ s.rspq.length = s.rspDepth) := by
  cases i with
  | nop | initC8 | initC16 | initX8 | feedX8 b =>
    exact iff_of_false (complete_ne_self hs rfl) (by simp [readsTable, responds])
  | feedC8 b | feedC16 b =>
    refine (whenTablesReady_eq_self_iff (withEntry_ne_self fun v => ?_)).trans ?_
    · exact complete_ne_self hs rfl
    · simp [readsTable, responds]
  | readC8 | readC16 | readX8 =>
    refine (respondWith_eq_self_iff hs _).trans ?_
    simp [readsTable, responds]
  | treadC8 k | treadC16 k =>
    refine (whenTablesReady_whenRoom_eq_self_iff (withEntry_ne_self fun v => ?_)).trans ?_
    · exact complete_ne_self hs rfl
    · simp [readsTable, responds]
  | rreg n =>
    obtain ⟨v, read⟩ := register_of_legal s (of_decide_eq_true hw)
    rw [exec_rreg_of_register read, respondWith_eq_self_iff hs]
    simp [readsTable, responds]

/-- Settles O32: `exec_eq_self_iff`, which does not need the invariant. -/
theorem commandsHoldExactlyOnTheTwoHazards : Obligations.CommandsHoldExactlyOnTheTwoHazards :=
  fun _ _ _ hw hs => exec_eq_self_iff hw hs

/-- Settles O48: the turn runs the head (O14), and its hazard makes that a hold. -/
theorem heldHeadBlocksTheStream : Obligations.HeldHeadBlocksTheStream := by
  intro s ts c cs i hs hd hhazard
  have hpresented : (s.following ts).stream ≠ [] := by simp [hs]
  rw [commandTurnRunsTheDecodedInstruction s ts c cs i hs hd]
  exact (exec_eq_self_iff (wellFormed_of_decode hd) hpresented).2 hhazard

end Sys2Proof.Machine

/-! PROOFS. What a step leaves of the model's own fields: the schedule, the capacity, the host's record (logs 1, 4, 6). -/

namespace Sys2Proof.Machine

@[simp] theorem builderTurn_rspDepth (s : State) : (builderTurn s).rspDepth = s.rspDepth :=
  (congrArg State.rspDepth (builderTurn_frame s) :)

@[simp] theorem hostDrain_rspDepth (s : State) : (hostDrain s).rspDepth = s.rspDepth :=
  (congrArg State.rspDepth (hostDrain_frame s).1 :)

/-- No step, a reset among them, changes the capacity of the response queue (log 4). -/
theorem step_rspDepth {s t : State} (h : step s = .next t) : t.rspDepth = s.rspDepth := by
  obtain ⟨-, h⟩ | ⟨-, rfl⟩ | ⟨c, -, rfl⟩ | ⟨-, rfl⟩ | ⟨-, rfl⟩ := step_next_cases h
  · obtain ⟨-, -, -, -, -, hdepth⟩ := commandTurn_frame h
    exact hdepth
  · exact builderTurn_rspDepth _
  · rfl
  · exact hostDrain_rspDepth _
  · rfl

/-- Settles O3: each field has its own lemma over the five turns a step can take. -/
theorem hostsSideIsKeptByEveryStep : Obligations.HostsSideIsKeptByEveryStep :=
  fun _ _ h => ⟨step_schedule h, step_rspDepth h, step_received h⟩

end Sys2Proof.Machine
